-- ==== Sys2Proof/Config.lean ====
section
/-! DEFINITION. The parameters of 00_scope.md R5 and the one free value of the model. -/

namespace Sys2Proof.Config

/-- `LEN_W` (R5): OPEN, at least 4. DESIGN CHOICE (log entry 1): the spec's own default, 32. -/
abbrev lenW : Nat := 32

/-- `TERM` (R5): the terminator unit, 0x00. -/
def term : BitVec 8 := 0x00

/-- FREE VALUE (log entry 9): whether the `n`-th host read of OUT made while the block is busy sees
the unit's present value (`true`) or the value it had when the command was accepted (`false`):
20_memory.md R75, 93_implementation_defined.md U7. -/
opaque readOutSeesNew : Nat → Bool

end Sys2Proof.Config
end

