-- ==== Sys2Proof/Word.lean ====
section
/-! DEFINITION. The word types (00_scope.md R5, R6). -/

namespace Sys2Proof

/-- A unit of IN or OUT, `UNIT_W` = 8 bits: a byte of binary data or a character of text (30_encoding.md R91). -/
abbrev Byte := BitVec 8

/-- An alphabet value, `SYM_W` = 6 bits, 0 to 63 (30_encoding.md R90 F2). -/
abbrev Sym := BitVec 6

/-- A length, a capacity, a count or an index (10_state.md R22, R23, R26, R30, R34). -/
abbrev LenWord := BitVec Config.lenW

/-- The contents of RESULT, one bit wider (10_state.md R27); also the register port's read data. -/
abbrev ResWord := BitVec (Config.lenW + 1)

/-- The bit accumulator ACC, `ACC_W` = 12 bits (10_state.md R31). -/
abbrev AccWord := BitVec 12

/-- The valid-bit count NBITS, `NBITS_W` = 4 bits (10_state.md R32). -/
abbrev NbWord := BitVec 4

end Sys2Proof
end

