-- ==== Sys2Proof/Syntax.lean ====
section
/-! DEFINITION. The codes of the registers as enumerations, and the instructions: the four host
commands, the eleven micro-steps, and the alphabet lookup (00_scope.md R9, opcode_table.json). -/

namespace Sys2Proof

/-- `CMD.OP` (10_state.md R21): four codes, none reserved. -/
inductive Op where
  | minlen | maxlen | encode | decode
  deriving DecidableEq, Repr

/-- `STATUS.STATE` (10_state.md R29): the states of the control machine (44_control.md R193). -/
inductive CtlState where
  | idle | accumulating | emitting | done | failed
  deriving DecidableEq, Repr

/-- `STATUS.ERR` (10_state.md R25): OK and the two error kinds (60_exceptions.md R210). -/
inductive ErrKind where
  | ok | insufficientSpace | invalidInput
  deriving DecidableEq, Repr

/-- The four whitespace characters (30_encoding.md R95). -/
inductive Whitespace where
  | tab | newline | carriageReturn | space
  deriving DecidableEq, Repr

/-- One constructor per mnemonic of opcode_table.json; the rows of one mnemonic (the 64 units of
DEC.SYM, the 188 of DEC.INV, the 4 of DEC.WS, the 64 values of ENC.SYM, the states `sss` of the two
START rows) are the values of its operand. -/
inductive Instr where
  /-- CMD 0, MINLEN (41_size_functions.md R132). -/
  | minlen
  /-- CMD 1, MAXLEN (41_size_functions.md R133). -/
  | maxlen
  /-- CMD 2, ENCODE (42_encode.md R140). -/
  | encode
  /-- CMD 3, DECODE (43_decode.md R160). -/
  | decode
  /-- STEP `10sss`, ENC.START in the not-busy state `sss` (42_encode.md R142). -/
  | encStart (st : CtlState)
  /-- STEP `10001`, `IPOS < TLEN`: ENC.BYTE (42_encode.md R143). -/
  | encByte
  /-- STEP `10010`: ENC.EMIT (42_encode.md R144). -/
  | encEmit
  /-- STEP `10001`, `IPOS = TLEN` and `NBITS > 0`: ENC.FLUSH (42_encode.md R145). -/
  | encFlush
  /-- STEP `10001`, `IPOS = TLEN` and `NBITS = 0`: ENC.TERM (42_encode.md R146). -/
  | encTerm
  /-- STEP `11sss`, DEC.START in the not-busy state `sss` (43_decode.md R161). -/
  | decStart (st : CtlState)
  /-- DCHAR and STEP: DEC.WS on a whitespace unit (43_decode.md R163). -/
  | decWs (w : Whitespace)
  /-- DCHAR and STEP: DEC.INV on the invalid unit `c` (43_decode.md R164). -/
  | decInv (c : Byte)
  /-- DCHAR and STEP: DEC.SYM on the alphabet character of value `v` (43_decode.md R165). -/
  | decSym (v : Sym)
  /-- STEP `11010`: DEC.EMIT (43_decode.md R166). -/
  | decEmit
  /-- STEP `11001`, `IPOS = TLEN`: DEC.END (43_decode.md R167). -/
  | decEnd
  /-- EVAL: ENC.SYM, the lookup `charOf(v)` (40_alphabet.md R120). -/
  | encSym (v : Sym)
  deriving DecidableEq, Repr

/-- The conditions a STEP row's `cond` field speaks of (30_encoding.md R106). -/
structure StepCond where
  /-- `IPOS < TLEN`. -/
  more : Bool
  /-- `NBITS > 0`. -/
  bitsLeft : Bool
  /-- The unit at `IN:IPOS`, where there is one. -/
  unit : Option Byte
  deriving DecidableEq, Repr

/-- A word of one of the four formats of opcode_table.json (30_encoding.md R107). The format is not in
the bits: it is where the word is presented. -/
inductive InstrWord where
  /-- CMD: `OP` = bits 1:0. -/
  | cmd (op : BitVec 2)
  /-- DCHAR: a unit of the text. -/
  | dchar (c : Byte)
  /-- EVAL: a value. -/
  | eval (v : Sym)
  /-- STEP: `OP[1:0] STATE[2:0]`, with the conditions. -/
  | step (bits : BitVec 5) (cond : StepCond)
  deriving DecidableEq, Repr

/-- Why a word is no instruction. -/
inductive DecodeError where
  /-- `STATUS.STATE` codes 5 to 7 are never produced (10_state.md R29, 30_encoding.md R110). -/
  | reservedState
  /-- The STEP format has no row for OP = MINLEN or MAXLEN (30_encoding.md R106, R107). -/
  | noStepRow
  /-- A DECODE step's class is that of the unit at `IN:IPOS`, and there is no such unit
  (20_memory.md R62). -/
  | noUnit
  deriving DecidableEq, Repr

end Sys2Proof
end

