-- ==== Sys2Proof/Machine/Alphabet.lean ====
section
/-! DEFINITION. The constant alphabet tables and the operations charOf, valueOf, isWhitespace
(30_encoding.md R92 to R95, 40_alphabet.md R120 to R125). -/

namespace Sys2Proof

/-- ENC_LUT (30_encoding.md R93), sixteen entries a line: `A`-`P`, `Q`-`f`, `g`-`v`, `w`-`_`. -/
def encLut : List Byte :=
  [0x41, 0x42, 0x43, 0x44, 0x45, 0x46, 0x47, 0x48, 0x49, 0x4A, 0x4B, 0x4C, 0x4D, 0x4E, 0x4F, 0x50] ++
  [0x51, 0x52, 0x53, 0x54, 0x55, 0x56, 0x57, 0x58, 0x59, 0x5A, 0x61, 0x62, 0x63, 0x64, 0x65, 0x66] ++
  [0x67, 0x68, 0x69, 0x6A, 0x6B, 0x6C, 0x6D, 0x6E, 0x6F, 0x70, 0x71, 0x72, 0x73, 0x74, 0x75, 0x76] ++
  [0x77, 0x78, 0x79, 0x7A, 0x30, 0x31, 0x32, 0x33, 0x34, 0x35, 0x36, 0x37, 0x38, 0x39, 0x2D, 0x5F]

/-- `charOf(v) = ENC_LUT[v]` (40_alphabet.md R120); the table has an entry for each of the 64 values. -/
def charOf (v : Sym) : Byte := encLut.getD v.toNat 0

/-- A DEC_LUT entry that is INVALID: bit 6 set, VALUE 0 (30_encoding.md R94). -/
def lutInvalid : BitVec 7 := 0x40

/-- DEC_LUT (30_encoding.md R94), row by row of its high nibble; `-1` stands for INVALID. -/
def decLutRows : List (List Int) :=
  [[-1, -1, -1, -1, -1, -1, -1, -1, -1, -1, -1, -1, -1, 62, -1, -1],
   [52, 53, 54, 55, 56, 57, 58, 59, 60, 61, -1, -1, -1, -1, -1, -1],
   [-1,  0,  1,  2,  3,  4,  5,  6,  7,  8,  9, 10, 11, 12, 13, 14],
   [15, 16, 17, 18, 19, 20, 21, 22, 23, 24, 25, -1, -1, -1, -1, 63],
   [-1, 26, 27, 28, 29, 30, 31, 32, 33, 34, 35, 36, 37, 38, 39, 40],
   [41, 42, 43, 44, 45, 46, 47, 48, 49, 50, 51, -1, -1, -1, -1, -1]]

/-- One written entry of the table as its 7 bits. -/
def lutEntry (x : Int) : BitVec 7 := if x < 0 then lutInvalid else BitVec.ofInt 7 x

/-- `DEC_LUT[c]` (30_encoding.md R94): rows 0x, 1x and 8x to Fx are invalid throughout. -/
def decLut (c : Byte) : BitVec 7 :=
  let hi := c.toNat / 16
  if 2 ≤ hi ∧ hi ≤ 7 then lutEntry ((decLutRows.getD (hi - 2) []).getD (c.toNat % 16) (-1))
  else lutInvalid

/-- `valueOf(c)` (40_alphabet.md R121); `none` is the result `invalid`. -/
def valueOf (c : Byte) : Option Sym :=
  if (decLut c).getLsbD 6 then none else some ((decLut c).setWidth 6)

/-- `isWhitespace(c)` (40_alphabet.md R122). -/
def isWhitespace (c : Byte) : Bool := c == 0x20 || c == 0x09 || c == 0x0A || c == 0x0D

/-- The code of each whitespace character (30_encoding.md R92). -/
def Whitespace.code : Whitespace → Byte
  | .tab => 0x09
  | .newline => 0x0A
  | .carriageReturn => 0x0D
  | .space => 0x20

/-- Which of the four whitespace characters a whitespace unit is. -/
def whitespaceOf (c : Byte) : Whitespace :=
  if c = 0x09 then .tab else if c = 0x0A then .newline else if c = 0x0D then .carriageReturn
  else .space

/-- The micro-step a unit of the text selects (30_encoding.md R105): whitespace is tested first, the
table second (40_alphabet.md R124). -/
def decodeUnit (c : Byte) : Instr :=
  if isWhitespace c then .decWs (whitespaceOf c)
  else match valueOf c with
    | some v => .decSym v
    | none => .decInv c

/-- The class `invalid` of 30_encoding.md R105: neither whitespace nor an alphabet character. -/
def isInvalidUnit (c : Byte) : Bool := !isWhitespace c && (valueOf c).isNone

end Sys2Proof
end

