-- ==== Sys2Proof/Machine/Codes.lean ====
section
/-! DEFINITION. The numeric codes of CMD.OP, STATUS.STATE, STATUS.ERR (10_state.md R21, R25, R29) and
which states are busy. -/

namespace Sys2Proof

/-- 10_state.md R21. -/
def Op.code : Op → BitVec 2
  | .minlen => 0
  | .maxlen => 1
  | .encode => 2
  | .decode => 3

/-- 10_state.md R21 read backwards; total, since no code is reserved. -/
def opOfCode (b : BitVec 2) : Op :=
  match b.toNat with
  | 0 => .minlen
  | 1 => .maxlen
  | 2 => .encode
  | _ => .decode

/-- 10_state.md R29. -/
def CtlState.code : CtlState → BitVec 3
  | .idle => 0
  | .accumulating => 1
  | .emitting => 2
  | .done => 3
  | .failed => 4

/-- 10_state.md R29 read backwards; codes 5 to 7 are never produced. -/
def ctlOfCode (b : BitVec 3) : Option CtlState :=
  match b.toNat with
  | 0 => some .idle
  | 1 => some .accumulating
  | 2 => some .emitting
  | 3 => some .done
  | 4 => some .failed
  | _ => none

/-- 10_state.md R25. -/
def ErrKind.code : ErrKind → BitVec 2
  | .ok => 0
  | .insufficientSpace => 1
  | .invalidInput => 2

/-- Busy: Accumulating or Emitting (10_state.md R29). -/
def CtlState.busy : CtlState → Bool
  | .accumulating => true
  | .emitting => true
  | .idle => false
  | .done => false
  | .failed => false

end Sys2Proof
end

