-- ==== Sys2Proof/Machine/State.lean ====
section
/-! DEFINITION. The state of the block and of its host, as plain data (10_state.md, 20_memory.md). -/

namespace Sys2Proof.Machine

/-- A buffer space as the host provided it (20_memory.md R60, R61): `size` units exist (`IN_SIZE` or
`OUT_SIZE`, 00_scope.md R5), at indices 0 to `size - 1`. `cells` lists, in rising order, the units that
are not what an unlisted index reads as. -/
structure Memory where
  size : Nat
  cells : List Host.Cell
  deriving DecidableEq, Repr

/-- What the host may do, one event each (00_scope.md R8, R9; 30_encoding.md R113). -/
inductive HostAction where
  /-- `WR`: a register-port write of `data` to register number `n` (10_state.md R20). -/
  | write (n : Nat) (data : LenWord)
  /-- `RD`: a register-port read of register number `n`. -/
  | read (n : Nat)
  /-- `IN = …`: the host provides the IN space: these units, then `pad` units 0x00. -/
  | provideIn (units : List Byte) (pad : Nat)
  /-- `OUT = …`: the host provides the OUT space: these units, then `pad` units 0x00. -/
  | provideOut (units : List Byte) (pad : Nat)
  /-- The host reads unit `j` of OUT. -/
  | readOut (j : Nat)
  /-- `WAIT`: the host reads STATUS until STATE is Done or Failed. -/
  | wait
  /-- The host does nothing and the engine moves. -/
  | engine
  /-- The reset input (70_reset_and_hazards.md R230). -/
  | reset
  deriving DecidableEq, Repr

/-- The block has no fault mechanism: 93_implementation_defined.md, "There is no behaviour treated as
`fault`". The two error kinds are statuses (60_exceptions.md R215). -/
inductive Fault where
  deriving DecidableEq, Repr

/-- Why the model gives no next state. Each but the first is safe: the spec gives the case no meaning. -/
inductive Refusal where
  /-- Raised by `exec` for an instruction that has no meaning yet. Safe. -/
  | notModelled (mnemonic : String)
  /-- Raised by ENCODE, and by DECODE with an explicit length, when `IN_SIZE < LEN`: launch premises P1
  and P2 (20_memory.md R64; 93_implementation_defined.md U1 `refuse`). Safe. -/
  | launchInputTooShort
  /-- Raised by DECODE with a negative LEN when IN holds no 0x00: premise P3 (U2 `refuse`). Safe. -/
  | launchNoTerminator
  /-- Raised by ENCODE and DECODE when `OUT_SIZE < CAP`: premise P4 (U3 `refuse`). Safe. -/
  | launchOutputTooShort
  /-- Raised when the host provides a space while the block is busy: premise P5 (U5 `refuse`). Safe. -/
  | hostTouchedSpaceWhileBusy
  /-- Raised when a space of more than 2^LEN_W units is provided (00_scope.md R5). Safe. -/
  | spaceTooLarge
  /-- Raised by a read of a unit of IN that was not provided (20_memory.md R62). Safe. -/
  | inUnitAbsent
  /-- Raised by an access to a unit of OUT that was not provided (20_memory.md R63). Safe. -/
  | outUnitAbsent
  /-- Raised by a micro-step asked for where its rule says it is not taken (44_control.md R194: "no
  other change of `STATUS.STATE` exists"). Safe. -/
  | notEnabled (mnemonic : String)
  /-- Raised by the engine's turn in a busy state with OP = MINLEN or MAXLEN, for which no micro-step
  exists (44_control.md R195, R196). No run reaches it. Safe. -/
  | noSuchStep
  deriving DecidableEq, Repr

/-- The whole state. -/
structure State where
  /-- `x[0]` CMD.OP (10_state.md R21). -/
  op : Op
  /-- `x[1]` LEN (R22). -/
  len : LenWord
  /-- `x[2]` CAP (R23). -/
  cap : LenWord
  /-- `x[3]` STATUS.STATE (R29). -/
  ctl : CtlState
  /-- `x[3]` STATUS.ERR (R25). -/
  err : ErrKind
  /-- `x[4]` COUNT (R26). -/
  count : LenWord
  /-- `x[5]` RESULT (R27). -/
  result : ResWord
  /-- ACC (R31). -/
  acc : AccWord
  /-- NBITS (R32). -/
  nbits : NbWord
  /-- IPOS (R30). -/
  ipos : LenWord
  /-- OPOS (R34). -/
  opos : LenWord
  /-- TLEN (R34). -/
  tlen : LenWord
  /-- The IN space (20_memory.md R60). -/
  inMem : Memory
  /-- The OUT space (20_memory.md R60). -/
  outMem : Memory
  /-- The model's own: the unit at the output of ENC_LUT (log entry 12). -/
  charOut : Byte
  /-- The model's own: the data value last returned to the host (log entry 15). -/
  rdata : ResWord
  /-- The model's own: OUT when the running operation was accepted (log entry 9). -/
  outBefore : Memory
  /-- The model's own: the next index of the free choice (log entry 9). -/
  freeCount : Nat
  /-- The model's own: what the host will still do, next action first (log entry 3). -/
  inputs : List HostAction
  deriving DecidableEq, Repr

/-- What a step or a meaning answers. -/
abbrev Result := Host.Outcome State Fault Refusal

/-- A space of which the host has provided no unit. -/
def Memory.absent : Memory := { size := 0, cells := [] }

/-- Right after reset (10_state.md R38, 70_reset_and_hazards.md R231): every register 0. The spaces
belong to the host, which has provided none yet, and has no action pending (log entries 4, 5). -/
def State.reset : State where
  op := .minlen
  len := 0
  cap := 0
  ctl := .idle
  err := .ok
  count := 0
  result := 0
  acc := 0
  nbits := 0
  ipos := 0
  opos := 0
  tlen := 0
  inMem := .absent
  outMem := .absent
  charOut := 0
  rdata := 0
  outBefore := .absent
  freeCount := 0
  inputs := []

end Sys2Proof.Machine
end

