-- ==== Sys2Proof/Machine/Ops.lean ====
section
/-! DEFINITION. The operations over the spaces and the registers that several meanings share: MemRead,
MemWrite, the length scan, acceptance of a command, `raise`, the lookup of a character. -/

namespace Sys2Proof.Machine

/-- What an index that `cells` does not list reads as (log entry 6). -/
def Memory.unlisted : Byte := 0x00

/-- The listed unit at an index, or what an unlisted one reads as. -/
def lookupCell : List Host.Cell → Nat → Byte
  | [], _ => Memory.unlisted
  | (a, u) :: rest, i => if a = i then u else lookupCell rest i

/-- `cells` with the unit `u` put before it at `j`, unless an unlisted index reads as `u` anyway. -/
def consCell (j : Nat) (u : Byte) (cells : List Host.Cell) : List Host.Cell :=
  if u = Memory.unlisted then cells else (j, u) :: cells

/-- `cells` with unit `j` replaced by `u`, in the canonical form. -/
def putCell : List Host.Cell → Nat → Byte → List Host.Cell
  | [], j, u => consCell j u []
  | (a, v) :: rest, j, u =>
    if a < j then (a, v) :: putCell rest j u
    else if a = j then consCell j u rest
    else consCell j u ((a, v) :: rest)

/-- The canonical form of `cells` from index `lo` up: rising, below `size`, none unlisted. -/
def cellsWf (size : Nat) : Nat → List Host.Cell → Bool
  | _, [] => true
  | lo, (a, u) :: rest =>
    decide (lo ≤ a) && decide (a < size) && decide (u ≠ Memory.unlisted) && cellsWf size (a + 1) rest

/-- A space has at most 2^LEN_W units (00_scope.md R5, 20_memory.md R61) and lists them canonically. -/
def Memory.wf (m : Memory) : Bool :=
  decide (m.size ≤ 2 ^ Config.lenW) && cellsWf m.size 0 m.cells

/-- `MemRead` (20_memory.md R62): defined only below the provided size. -/
def Memory.read (m : Memory) (i : Nat) : Option Byte :=
  if i < m.size then some (lookupCell m.cells i) else none

/-- `MemWrite` (20_memory.md R63): defined only below the provided size. -/
def Memory.write (m : Memory) (j : Nat) (u : Byte) : Option Memory :=
  if j < m.size then some { m with cells := putCell m.cells j u } else none

/-- The cells of consecutive units from index `k`. -/
def cellsOfUnits : Nat → List Byte → List Host.Cell
  | _, [] => []
  | k, u :: rest => consCell k u (cellsOfUnits (k + 1) rest)

/-- The space the host provides: the units given, then `pad` units 0x00 (30_encoding.md R113). -/
def Memory.ofUnits (units : List Byte) (pad : Nat) : Memory :=
  { size := units.length + pad, cells := cellsOfUnits 0 units }

/-- The length scan of DEC.START from index `z` (43_decode.md R161), through at most `fuel` units; it
answers none where it would run off the provided units. -/
def scanTerm (m : Memory) : Nat → Nat → Option Nat
  | 0, _ => none
  | fuel + 1, z =>
    match m.read z with
    | none => none
    | some u => if u = Config.term then some z else scanTerm m fuel (z + 1)

/-- The index of the first 0x00 unit of the space. -/
def Memory.firstTerm (m : Memory) : Option Nat := scanTerm m m.size 0

/-- Busy (10_state.md R29). -/
def State.busy (s : State) : Bool := s.ctl.busy

/-- The common effects of acceptance (44_control.md R192). This is also the way out of Failed: a
command is accepted there as in Idle and Done and clears ERR (60_exceptions.md R217). -/
def State.accept (s : State) (op : Op) : State := { s with op := op, err := .ok }

/-- `raise E()` (60_exceptions.md R215): writes ERR and STATE and nothing else. -/
def State.raise (s : State) (e : ErrKind) : State := { s with err := e, ctl := .failed }

/-- The else branch of ENC.START and DEC.START (42_encode.md R142, 43_decode.md R161). `outBefore` is
the model's own record of OUT at acceptance (log entry 9). -/
def State.startRun (s : State) : State :=
  { s with acc := 0, nbits := 0, ipos := 0, opos := 0, ctl := .accumulating, outBefore := s.outMem }

/-- A command written to CMD (44_control.md R190, R191): ignored while busy, else accepted, and `body`
is the rest of the acceptance step. -/
def State.onCommand (s : State) (op : Op) (body : State → Result) : Result :=
  if s.busy then .next s else body (s.accept op)

/-- A read of ENC_LUT (40_alphabet.md R120): its result is at the table's output. -/
def State.lookupChar (s : State) (v : Sym) : State := { s with charOut := charOf v }

/-- `MemWrite(OUT:OPOS, 1, u)` (20_memory.md R63). -/
def State.putOut (s : State) (u : Byte) : Option State :=
  match s.outMem.write s.opos.toNat u with
  | some m => some { s with outMem := m }
  | none => none

/-- `MemRead(IN:IPOS, 1)` (20_memory.md R62). -/
def State.unitAtIpos (s : State) : Option Byte := s.inMem.read s.ipos.toNat

end Sys2Proof.Machine
end

