-- ==== Sys2Proof/Machine/Operands.lean ====
section
/-! DEFINITION. The size functions (41_size_functions.md R130, R131, R134) and the operand forms of the
micro-steps: shifts into the accumulator, slices out of it, its mask (42_encode.md, 43_decode.md). -/

namespace Sys2Proof.Machine

/-- 41_size_functions.md R130; exact (R134). -/
def minEncodedLength (n : Nat) : Nat := (n * 8 + 5) / 6 + 1

/-- 41_size_functions.md R131; exact (R134). -/
def maxDecodedLength (n : Nat) : Nat := (n * 6) / 8

/-- LEN read as a signed number is negative (43_decode.md R161, 10_state.md R22). -/
def lenNegative (len : LenWord) : Bool := len.msb

/-- `((ACC << 8) | zext_12(b))[11:0]` (42_encode.md R143). -/
def shiftInByte (acc : AccWord) (b : Byte) : AccWord := (acc <<< 8) ||| b.setWidth 12

/-- `((ACC << 6) | zext_12(v))[11:0]` (43_decode.md R165). -/
def shiftInSym (acc : AccWord) (v : Sym) : AccWord := (acc <<< 6) ||| v.setWidth 12

/-- `ACC[NBITS-1 : NBITS-6]` (42_encode.md R144). -/
def topSym (acc : AccWord) (n : NbWord) : Sym := (acc >>> (n.toNat - 6)).setWidth 6

/-- `ACC[NBITS-1 : NBITS-8]` (43_decode.md R166). -/
def topByte (acc : AccWord) (n : NbWord) : Byte := (acc >>> (n.toNat - 8)).setWidth 8

/-- `(ACC << (6 - NBITS))[5:0]` (42_encode.md R145; 90_conflicts.md C1: zeros below). -/
def flushSym (acc : AccWord) (n : NbWord) : Sym := (acc <<< (6 - n.toNat)).setWidth 6

/-- `ACC & (2^NBITS - 1)` (42_encode.md R144). -/
def maskValid (acc : AccWord) (n : NbWord) : AccWord :=
  acc &&& BitVec.ofNat 12 (2 ^ n.toNat - 1)

end Sys2Proof.Machine
end

