-- ==== Sys2Proof/Machine/Flags.lean ====
section
/-! DEFINITION. STATUS: its word, the next STATE of the steps that compute it, and the conditions under
which each micro-step is taken (10_state.md R24, 44_control.md R193 to R196). -/

namespace Sys2Proof.Machine

/-- STATUS as read: ERR in bits 4:3, STATE in bits 2:0 (10_state.md R24). -/
def State.statusWord (s : State) : BitVec 5 := s.err.code ++ s.ctl.code

/-- The next STATE by the new NBITS against an emit threshold (42_encode.md R144, 43_decode.md R165,
R166; 44_control.md R193). -/
def ctlByCount (threshold : Nat) (n : NbWord) : CtlState :=
  if threshold ≤ n.toNat then .emitting else .accumulating

/-- An ENCODE is in Accumulating (42_encode.md R143, R145, R146). -/
abbrev State.encAccumulating (s : State) : Prop := s.op = .encode ∧ s.ctl = .accumulating

/-- An ENCODE is in Emitting, "then `NBITS >= 6`" (42_encode.md R144; log entry 10). -/
abbrev State.encEmitting (s : State) : Prop :=
  s.op = .encode ∧ s.ctl = .emitting ∧ 6 ≤ s.nbits.toNat

/-- A DECODE is in Accumulating (43_decode.md R163 to R165, R167). -/
abbrev State.decAccumulating (s : State) : Prop := s.op = .decode ∧ s.ctl = .accumulating

/-- A DECODE is in Emitting, "then `NBITS >= 8`" (43_decode.md R166; log entry 10). -/
abbrev State.decEmitting (s : State) : Prop :=
  s.op = .decode ∧ s.ctl = .emitting ∧ 8 ≤ s.nbits.toNat

/-- The decode pass is at a unit (43_decode.md R163 to R165). -/
abbrev State.atUnit (s : State) (c : Byte) : Prop :=
  s.decAccumulating ∧ s.ipos.toNat < s.tlen.toNat ∧ s.unitAtIpos = some c

end Sys2Proof.Machine
end

