-- ==== Sys2Proof/Machine/DecodeSteps.lean ====
section
/-! DEFINITION. DECODE: the command and its micro-steps (43_decode.md). -/

namespace Sys2Proof.Machine

/-- TLEN of a DECODE (43_decode.md R161): LEN, or for a negative LEN the index of the first 0x00 unit;
refused where premise P2 or P3 fails (20_memory.md R64). -/
def effectiveLength (s : State) : Except Refusal LenWord :=
  if lenNegative s.len then
    match s.inMem.firstTerm with
    | some z => .ok (BitVec.ofNat Config.lenW z)
    | none => .error .launchNoTerminator
  else if s.inMem.size < s.len.toNat then .error .launchInputTooShort
  else .ok s.len

/-- DEC.START after the common acceptance effects (R161), on a launch that meets premises P2 to P4. -/
def decStartBody (s : State) : Result :=
  match effectiveLength s with
  | .error r => .refused r
  | .ok l =>
    if s.outMem.size < s.cap.toNat then .refused .launchOutputTooShort
    else
      let s := { s with tlen := l }
      if s.cap.toNat < maxDecodedLength l.toNat then .next (s.raise .insufficientSpace)
      else .next s.startRun

/-- DECODE, written to CMD (R160): its acceptance step is DEC.START. -/
def execDecode (s : State) : Result := s.onCommand .decode decStartBody

/-- DEC.START, the step taken in the not-busy state `st` (R161). -/
def execDecStart (st : CtlState) (s : State) : Result :=
  if s.ctl = st ∧ st.busy = false then decStartBody (s.accept .decode)
  else .refused (.notEnabled "DEC.START")

/-- DEC.WS on the whitespace character `w` at `IN:IPOS` (R163). -/
def execDecWs (w : Whitespace) (s : State) : Result :=
  if s.atUnit w.code then .next { s with ipos := s.ipos + 1 }
  else .refused (.notEnabled "DEC.WS")

/-- DEC.INV on the invalid unit `c` at `IN:IPOS` (R164). -/
def execDecInv (c : Byte) (s : State) : Result :=
  if s.atUnit c ∧ isInvalidUnit c = true then
    .next ({ s with ipos := s.ipos + 1 }.raise .invalidInput)
  else .refused (.notEnabled "DEC.INV")

/-- DEC.SYM on the alphabet character of value `v` at `IN:IPOS` (R165); NBITS is below the emit
threshold 8 (44_control.md R193; log entry 10). -/
def execDecSym (v : Sym) (s : State) : Result :=
  if s.atUnit (charOf v) ∧ s.nbits.toNat < 8 then
    let n := s.nbits + 6
    .next { s with
      acc := shiftInSym s.acc v, nbits := n, ipos := s.ipos + 1,
      ctl := ctlByCount 8 n }
  else .refused (.notEnabled "DEC.SYM")

/-- DEC.EMIT (R166). -/
def execDecEmit (s : State) : Result :=
  if s.decEmitting then
    match s.putOut (topByte s.acc s.nbits) with
    | none => .refused .outUnitAbsent
    | some t =>
      let n := s.nbits - 8
      .next { t with
        opos := s.opos + 1, nbits := n, acc := maskValid s.acc n,
        ctl := ctlByCount 8 n }
  else .refused (.notEnabled "DEC.EMIT")

/-- DEC.END (R167). -/
def execDecEnd (s : State) : Result :=
  if s.decAccumulating ∧ s.ipos = s.tlen then .next { s with count := s.opos, ctl := .done }
  else .refused (.notEnabled "DEC.END")

end Sys2Proof.Machine
end

