-- ==== Sys2Proof/Machine/Encode.lean ====
section
/-! DEFINITION. ENCODE: the command, its micro-steps, and the lookup ENC.SYM (42_encode.md,
40_alphabet.md R120). -/

namespace Sys2Proof.Machine

/-- ENC.START after the common acceptance effects (42_encode.md R142), on a launch that meets premises
P1 and P4 (20_memory.md R64). -/
def encStartBody (s : State) : Result :=
  if s.inMem.size < s.len.toNat then .refused .launchInputTooShort
  else if s.outMem.size < s.cap.toNat then .refused .launchOutputTooShort
  else
    let s := { s with tlen := s.len }
    if s.cap.toNat < minEncodedLength s.len.toNat then .next (s.raise .insufficientSpace)
    else .next s.startRun

/-- ENCODE, written to CMD (R140): its acceptance step is ENC.START. -/
def execEncode (s : State) : Result := s.onCommand .encode encStartBody

/-- ENC.START, the step taken in the not-busy state `st` (R142). -/
def execEncStart (st : CtlState) (s : State) : Result :=
  if s.ctl = st ∧ st.busy = false then encStartBody (s.accept .encode)
  else .refused (.notEnabled "ENC.START")

/-- ENC.BYTE (R143); NBITS is below the emit threshold 6 (44_control.md R193; log entry 10). -/
def execEncByte (s : State) : Result :=
  if s.encAccumulating ∧ s.ipos.toNat < s.tlen.toNat ∧ s.nbits.toNat < 6 then
    match s.unitAtIpos with
    | none => .refused .inUnitAbsent
    | some b =>
      .next { s with
        acc := shiftInByte s.acc b, nbits := s.nbits + 8, ipos := s.ipos + 1, ctl := .emitting }
  else .refused (.notEnabled "ENC.BYTE")

/-- ENC.EMIT (R144). -/
def execEncEmit (s : State) : Result :=
  if s.encEmitting then
    let looked := s.lookupChar (topSym s.acc s.nbits)
    match looked.putOut looked.charOut with
    | none => .refused .outUnitAbsent
    | some t =>
      let n := s.nbits - 6
      .next { t with
        opos := s.opos + 1, nbits := n, acc := maskValid s.acc n,
        ctl := ctlByCount 6 n }
  else .refused (.notEnabled "ENC.EMIT")

/-- ENC.FLUSH (R145), for 1 to 5 remaining bits. -/
def execEncFlush (s : State) : Result :=
  if s.encAccumulating ∧ s.ipos = s.tlen ∧ 0 < s.nbits.toNat ∧ s.nbits.toNat < 6 then
    let looked := s.lookupChar (flushSym s.acc s.nbits)
    match looked.putOut looked.charOut with
    | none => .refused .outUnitAbsent
    | some t => .next { t with opos := s.opos + 1, acc := 0, nbits := 0, ctl := .accumulating }
  else .refused (.notEnabled "ENC.FLUSH")

/-- ENC.TERM (R146). -/
def execEncTerm (s : State) : Result :=
  if s.encAccumulating ∧ s.ipos = s.tlen ∧ s.nbits = 0 then
    match s.putOut Config.term with
    | none => .refused .outUnitAbsent
    | some t => .next { t with count := s.opos, ctl := .done }
  else .refused (.notEnabled "ENC.TERM")

/-- ENC.SYM: the lookup `charOf(v)` by itself (40_alphabet.md R120; log entry 12). ENC.EMIT and
ENC.FLUSH perform the same lookup. -/
def execEncSym (v : Sym) (s : State) : Result := .next (s.lookupChar v)

end Sys2Proof.Machine
end

