-- ==== Sys2Proof/Machine/SizeCommands.lean ====
section
/-! DEFINITION. MINLEN and MAXLEN (41_size_functions.md R132, R133). -/

namespace Sys2Proof.Machine

/-- What both commands do once accepted: RESULT, then Done (44_control.md R197). -/
def State.finishSize (s : State) (r : Nat) : State :=
  { s with result := BitVec.ofNat (Config.lenW + 1) r, ctl := .done }

/-- MINLEN (R132): LEN is unsigned. -/
def execMinlen (s : State) : Result :=
  s.onCommand .minlen fun a => .next (a.finishSize (minEncodedLength a.len.toNat))

/-- MAXLEN (R133): LEN is unsigned. -/
def execMaxlen (s : State) : Result :=
  s.onCommand .maxlen fun a => .next (a.finishSize (maxDecodedLength a.len.toNat))

end Sys2Proof.Machine
end

