-- ==== Sys2Proof/Machine/Dispatch.lean ====
section
/-! DEFINITION. One arm per instruction. -/

namespace Sys2Proof.Machine

def exec (i : Instr) (s : State) : Host.Outcome State Fault Refusal :=
  match i with
  | .minlen => Sys2Proof.Machine.execMinlen s
  | .maxlen => Sys2Proof.Machine.execMaxlen s
  | .encode => Sys2Proof.Machine.execEncode s
  | .decode => Sys2Proof.Machine.execDecode s
  | .encStart st => Sys2Proof.Machine.execEncStart st s
  | .encByte => Sys2Proof.Machine.execEncByte s
  | .encEmit => Sys2Proof.Machine.execEncEmit s
  | .encFlush => Sys2Proof.Machine.execEncFlush s
  | .encTerm => Sys2Proof.Machine.execEncTerm s
  | .decStart st => Sys2Proof.Machine.execDecStart st s
  | .decWs w => Sys2Proof.Machine.execDecWs w s
  | .decInv c => Sys2Proof.Machine.execDecInv c s
  | .decSym v => Sys2Proof.Machine.execDecSym v s
  | .decEmit => Sys2Proof.Machine.execDecEmit s
  | .decEnd => Sys2Proof.Machine.execDecEnd s
  | .encSym v => Sys2Proof.Machine.execEncSym v s

end Sys2Proof.Machine
end

