-- ==== Sys2Proof/WellFormed.lean ====
section
/-! DEFINITION. Which terms of Instr are instructions of the block. -/

namespace Sys2Proof

/-- A START step is taken in a not-busy state only (the `sss` of its STEP row); DEC.INV is the step of
an invalid unit only (30_encoding.md R105, R107). Every other term is a row. -/
def Instr.wellFormed : Instr → Bool
  | .minlen => true
  | .maxlen => true
  | .encode => true
  | .decode => true
  | .encStart st => !st.busy
  | .encByte => true
  | .encEmit => true
  | .encFlush => true
  | .encTerm => true
  | .decStart st => !st.busy
  | .decWs _ => true
  | .decInv c => isInvalidUnit c
  | .decSym _ => true
  | .decEmit => true
  | .decEnd => true
  | .encSym _ => true

end Sys2Proof
end

