-- ==== Sys2Proof/Decode.lean ====
section
/-! DEFINITION. The decoder of the four maps of opcode_table.json, total, rejecting by name, and the
encoder beside it (30_encoding.md R104 to R107). -/

namespace Sys2Proof

/-- CMD (30_encoding.md R104): the map is full. -/
def decodeCmd (op : BitVec 2) : Instr :=
  match opOfCode op with
  | .minlen => .minlen
  | .maxlen => .maxlen
  | .encode => .encode
  | .decode => .decode

/-- STEP (30_encoding.md R106, with the two acceptance rows of R107): the step dispatch. -/
def decodeStep (op : Op) (st : CtlState) (k : StepCond) : Except DecodeError Instr :=
  match op with
  | .minlen => .error .noStepRow
  | .maxlen => .error .noStepRow
  | .encode =>
    match st with
    | .accumulating =>
      if k.more then .ok .encByte else if k.bitsLeft then .ok .encFlush else .ok .encTerm
    | .emitting => .ok .encEmit
    | .idle => .ok (.encStart .idle)
    | .done => .ok (.encStart .done)
    | .failed => .ok (.encStart .failed)
  | .decode =>
    match st with
    | .accumulating =>
      if k.more then
        match k.unit with
        | some c => .ok (decodeUnit c)
        | none => .error .noUnit
      else .ok .decEnd
    | .emitting => .ok .decEmit
    | .idle => .ok (.decStart .idle)
    | .done => .ok (.decStart .done)
    | .failed => .ok (.decStart .failed)

/-- The decoder, by format. -/
def decode : InstrWord → Except DecodeError Instr
  | .cmd op => .ok (decodeCmd op)
  | .dchar c => .ok (decodeUnit c)
  | .eval v => .ok (.encSym v)
  | .step bits k =>
    match ctlOfCode (bits.setWidth 3) with
    | some st => decodeStep (opOfCode (bits.extractLsb' 3 2)) st k
    | none => .error .reservedState

/-- The 5 bits `OP[1:0] STATE[2:0]` of a STEP word. -/
def stepBits (op : Op) (st : CtlState) : BitVec 5 := op.code ++ st.code

/-- A STEP word whose row does not look at the unit. -/
def stepWord (op : Op) (st : CtlState) (more bitsLeft : Bool) : InstrWord :=
  .step (stepBits op st) ⟨more, bitsLeft, none⟩

/-- The word of an instruction, from the same rows: the DECODE classes by their DCHAR row. -/
def encode : Instr → InstrWord
  | .minlen => .cmd 0
  | .maxlen => .cmd 1
  | .encode => .cmd 2
  | .decode => .cmd 3
  | .encStart st => stepWord .encode st false false
  | .encByte => stepWord .encode .accumulating true false
  | .encEmit => stepWord .encode .emitting false true
  | .encFlush => stepWord .encode .accumulating false true
  | .encTerm => stepWord .encode .accumulating false false
  | .decStart st => stepWord .decode st false false
  | .decWs w => .dchar w.code
  | .decInv c => .dchar c
  | .decSym v => .dchar (charOf v)
  | .decEmit => stepWord .decode .emitting false true
  | .decEnd => stepWord .decode .accumulating false false
  | .encSym v => .eval v

/-- The STEP word of 5 bits, with the condition of the first row of opcode_table.json that has them. -/
def tableStep (w : Nat) : InstrWord := .step (BitVec.ofNat 5 w) ⟨true, true, some 0x20⟩

/-- The STEP format has a row with these 5 bits. -/
def hasStepRow (w : Nat) : Bool :=
  match decode (tableStep w) with
  | .ok _ => true
  | .error _ => false

/-- The word that `w` is as a row of opcode_table.json of `nbits` bits (log entry 14). The table's
formats are 2 (CMD), 5 (STEP), 6 (EVAL) and 8 (DCHAR) bits wide and a word does not say its format. A
width of 2, 5 or 6 names its format; in whole bytes a word is of the narrowest format that has it. -/
def tableWord (nbits w : Nat) : Option InstrWord :=
  if nbits = 5 then
    if w < 32 then some (tableStep w) else none
  else if nbits = 6 then
    if w < 64 then some (.eval (BitVec.ofNat 6 w)) else none
  else if w < 4 then some (.cmd (BitVec.ofNat 2 w))
  else if nbits = 2 then none
  else if w < 32 ∧ hasStepRow w = true then some (tableStep w)
  else if w < 64 then some (.eval (BitVec.ofNat 6 w))
  else if w < 256 then some (.dchar (BitVec.ofNat 8 w))
  else none

/-- The instruction the decoder reads from a row's word. -/
def decodeTableWord (nbits w : Nat) : Option Instr :=
  match tableWord nbits w with
  | some word =>
    match decode word with
    | .ok i => some i
    | .error _ => none
  | none => none

end Sys2Proof
end

