-- ==== Sys2Proof/Machine/HostPort.lean ====
section
/-! DEFINITION. What the host does: the register port, the spaces, reset, WAIT (10_state.md R20 to R27,
20_memory.md R64, R75, 70_reset_and_hazards.md R231, 30_encoding.md R113). -/

namespace Sys2Proof.Machine

/-- What one step turns out to be. -/
inductive Turn where
  /-- The event is over and this is the state. -/
  | done (t : State)
  /-- The instruction runs on this state. -/
  | run (i : Instr) (t : State)
  /-- No next state. -/
  | refuse (r : Refusal)

/-- The value a register read returns, zero-extended (10_state.md R20 to R27, 30_encoding.md R110). -/
def State.portRead (s : State) (n : Nat) : ResWord :=
  match n with
  | 0 => s.op.code.setWidth _
  | 1 => s.len.setWidth _
  | 2 => s.cap.setWidth _
  | 3 => s.statusWord.setWidth _
  | 4 => s.count.setWidth _
  | 5 => s.result
  | _ => 0

/-- A register write (10_state.md R20 to R23, 44_control.md R190, R191, 30_encoding.md R110): to CMD it
runs the command, whose meaning ignores it while busy; to LEN and CAP it is ignored while busy; to any
other register it has no effect. -/
def State.portWrite (s : State) (n : Nat) (data : LenWord) : Turn :=
  match n with
  | 0 => .run (decodeCmd (data.setWidth 2)) s
  | 1 => .done (if s.busy then s else { s with len := data })
  | 2 => .done (if s.busy then s else { s with cap := data })
  | _ => .done s

/-- The host provides a space: not while busy (20_memory.md R64 P5), and at most 2^LEN_W units
(00_scope.md R5). -/
def State.provide (s : State) (units : List Byte) (pad : Nat) (place : State → Memory → State) : Turn :=
  if s.busy then .refuse .hostTouchedSpaceWhileBusy
  else if 2 ^ Config.lenW < units.length + pad then .refuse .spaceTooLarge
  else .done (place s (Memory.ofUnits units pad))

/-- The host reads `OUT:j` (20_memory.md R75): the unit, or while busy either its present value or the
one it had at acceptance, freely (93_implementation_defined.md U7; log entry 9). R75 promises the
engine's writes only to a read after STATUS was read as Done or Failed; DESIGN CHOICE (log entry 25):
they are seen as soon as the block is not busy. -/
def State.hostReadOut (s : State) (j : Nat) : Turn :=
  match s.outMem.read j with
  | none => .refuse .outUnitAbsent
  | some now =>
    if s.busy then
      let before := (s.outBefore.read j).getD now
      let seen := if Config.readOutSeesNew s.freeCount then now else before
      .done { s with rdata := seen.setWidth _, freeCount := s.freeCount + 1 }
    else .done { s with rdata := now.setWidth _ }

/-- The reset input (70_reset_and_hazards.md R231, R232): every register takes its reset value; the
spaces and what is the host's stay. -/
def State.rst (s : State) : State :=
  { State.reset with
    inMem := s.inMem, outMem := s.outMem, rdata := s.rdata, outBefore := s.outBefore,
    freeCount := s.freeCount, inputs := s.inputs }

end Sys2Proof.Machine
end

