-- ==== Sys2Proof/Machine/Fetch.lean ====
section
/-! DEFINITION. Which word the machine runs next: the host's write to CMD, or the engine's STEP word
(44_control.md R190, R195, R196; 30_encoding.md R106). -/

namespace Sys2Proof.Machine

/-- The STEP word of a busy state: OP, STATE and the conditions of 30_encoding.md R106. -/
def State.engineWord (s : State) : InstrWord :=
  .step (stepBits s.op s.ctl)
    { more := decide (s.ipos.toNat < s.tlen.toNat), bitsLeft := decide (0 < s.nbits.toNat),
      unit := s.unitAtIpos }

/-- A word that is no instruction, as the refusal of the engine's turn. -/
def refusalOf : DecodeError → Refusal
  | .reservedState => .noSuchStep
  | .noStepRow => .noSuchStep
  | .noUnit => .inUnitAbsent

/-- The engine's turn: while busy its one micro-step, otherwise nothing (44_control.md R195, R196, R198;
60_exceptions.md R223). -/
def State.engineTurn (s : State) : Turn :=
  if s.busy then
    match decode s.engineWord with
    | .ok i => .run i s
    | .error e => .refuse (refusalOf e)
  else .done s

/-- The next event: the host's next action, or, when it has none or waits, the engine's turn. -/
def State.turn (s : State) : Turn :=
  match s.inputs with
  | [] => s.engineTurn
  | .engine :: rest => { s with inputs := rest }.engineTurn
  | .write n data :: rest => { s with inputs := rest }.portWrite n data
  | .read n :: rest => .done { s with inputs := rest, rdata := s.portRead n }
  | .provideIn units pad :: rest =>
    { s with inputs := rest }.provide units pad fun t m => { t with inMem := m }
  | .provideOut units pad :: rest =>
    { s with inputs := rest }.provide units pad fun t m => { t with outMem := m }
  | .readOut j :: rest => { s with inputs := rest }.hostReadOut j
  | .wait :: rest =>
    if s.ctl = .done ∨ s.ctl = .failed then .done { s with inputs := rest, rdata := s.portRead 3 }
    else s.engineTurn
  | .reset :: rest => .done { s with inputs := rest }.rst

/-- The host's actions with the engine moving first: a host that has none leaves the engine its turn. -/
def engineFirst : List HostAction → List HostAction
  | [] => []
  | a :: rest => .engine :: a :: rest

/-- A busy state at the start of a run whose next event is the engine's. -/
def State.running (s : State) (op : Op) (ctl : CtlState) : State :=
  { s with
    inputs := engineFirst s.inputs, op := op, ctl := ctl, err := .ok,
    acc := 0, nbits := 0, ipos := 0, opos := 0, tlen := 1 }

/-- The IN space with its first unit `u`. -/
def Memory.withFirst (m : Memory) (u : Byte) : Memory := (m.write 0 u).getD (Memory.ofUnits [u] 0)

/-- An OUT space that has a first unit. -/
def Memory.withRoom (m : Memory) : Memory := if m.size = 0 then Memory.ofUnits [0x00] 0 else m

/-- The state whose next step runs the STEP row of `op` and `ctl` that `tableWord` takes. -/
def State.placeStep (s : State) (op : Op) (ctl : CtlState) : State :=
  if ctl.busy then
    let t := s.running op ctl
    { t with
      inMem := s.inMem.withFirst 0x20, outMem := s.outMem.withRoom,
      nbits := if ctl = .emitting then 8 else 0 }
  else { s with inputs := .write 0 (op.code.setWidth _) :: s.inputs, ctl := ctl }

/-- `s` with a word presented where the next step takes it (log entry 14): a command as the host's next
write to CMD; a unit at `IN:0` of a running DECODE; a value as the top six valid bits of a running
ENCODE, whose ENC.EMIT looks it up; a STEP word as the control state it names. -/
def State.present (s : State) : InstrWord → State
  | .cmd op => { s with inputs := .write 0 (op.setWidth _) :: s.inputs }
  | .dchar c => { s.running .decode .accumulating with inMem := s.inMem.withFirst c }
  | .eval v =>
    { s.running .encode .emitting with
      acc := v.setWidth _, nbits := 6, ipos := 1, outMem := s.outMem.withRoom }
  | .step bits _ =>
    match ctlOfCode (bits.setWidth 3) with
    | some ctl => s.placeStep (opOfCode (bits.extractLsb' 3 2)) ctl
    | none => s

/-- `s` with a row's word of opcode_table.json presented. -/
def State.placeTableWord (s : State) (nbits w : Nat) : State :=
  match tableWord nbits w with
  | some word => s.present word
  | none => s

end Sys2Proof.Machine
end

