-- ==== Sys2Proof/Machine/Step.lean ====
section
/-! DEFINITION. One event of the total order of 00_scope.md R9. -/

namespace Sys2Proof.Machine

/-- One step: a host action, or one micro-step of the engine. -/
def step (s : State) : Host.Outcome State Fault Refusal :=
  match s.turn with
  | .done t => .next t
  | .run i t => exec i t
  | .refuse r => .refused r

/-- `s` with a row's word stored where the next step takes it. -/
def State.withFetchWord (s : State) (nbits w : Nat) : State := s.placeTableWord nbits w

end Sys2Proof.Machine
end

