-- ==== Sys2Proof/Machine/Reference.lean ====
section
/-! DEFINITION. The reference functions of whole operations: ENCODE (42_encode.md R141) and DECODE
(43_decode.md R162), over lists of bits, most significant first (20_memory.md R65). The micro-steps do
not use them; claims compare the micro-steps with them. -/

namespace Sys2Proof.Machine

/-- The bits of a unit, bit 7 first. -/
def unitBits (b : Byte) : List Bool :=
  [b.getLsbD 7, b.getLsbD 6, b.getLsbD 5, b.getLsbD 4, b.getLsbD 3, b.getLsbD 2, b.getLsbD 1,
    b.getLsbD 0]

/-- The bits of a value, bit 5 first. -/
def symBits (v : Sym) : List Bool :=
  [v.getLsbD 5, v.getLsbD 4, v.getLsbD 3, v.getLsbD 2, v.getLsbD 1, v.getLsbD 0]

/-- The number whose bits are given, the first the most significant. -/
def bitsValue (bits : List Bool) : Nat := bits.foldl (fun n b => 2 * n + b.toNat) 0

/-- Consecutive whole groups of 6 bits; a last group that is not whole is dropped. -/
def cutSyms : List Bool → List Sym
  | b5 :: b4 :: b3 :: b2 :: b1 :: b0 :: rest =>
    BitVec.ofNat _ (bitsValue [b5, b4, b3, b2, b1, b0]) :: cutSyms rest
  | _ => []

/-- Consecutive whole groups of 8 bits; a last group that is not whole is dropped (R162: floor). -/
def cutUnits : List Bool → List Byte
  | b7 :: b6 :: b5 :: b4 :: b3 :: b2 :: b1 :: b0 :: rest =>
    BitVec.ofNat _ (bitsValue [b7, b6, b5, b4, b3, b2, b1, b0]) :: cutUnits rest
  | _ => []

/-- `enc_values(B)` (R141): the bits of the bytes, zeros up to a multiple of 6, cut in sixes. -/
def encValues (bytes : List Byte) : List Sym :=
  cutSyms (bytes.flatMap unitBits ++ List.replicate ((6 - 8 * bytes.length % 6) % 6) false)

/-- The alphabet characters ENCODE writes, without the terminator. -/
def encChars (bytes : List Byte) : List Byte := (encValues bytes).map charOf

/-- `enc_text(B)` (R141). -/
def encText (bytes : List Byte) : List Byte := encChars bytes ++ [Config.term]

/-- `U` of R162: the text up to its first invalid unit. -/
def validPrefix (text : List Byte) : List Byte := text.takeWhile fun c => !isInvalidUnit c

/-- `V` of R162: the values of the units that are not whitespace. -/
def textValues (text : List Byte) : List Sym :=
  (text.filter fun c => !isWhitespace c).filterMap valueOf

/-- The bytes DECODE writes for a text (R162). -/
def decBytes (text : List Byte) : List Byte :=
  cutUnits ((textValues (validPrefix text)).flatMap symBits)

/-- The first `n` units of a space. -/
def Memory.firstUnits (m : Memory) (n : Nat) : List Byte := (List.range n).map (lookupCell m.cells)

end Sys2Proof.Machine
end

