-- ==== Sys2Proof/Safety.lean ====
section
/-! DEFINITION. What claims speak in: legal launches, the invariant of a run, what a store changes, the
state table. -/

namespace Sys2Proof.Machine

/-- Launch premises P1 and P4 of ENCODE (20_memory.md R64). -/
abbrev State.encodeLegal (s : State) : Prop :=
  s.len.toNat ≤ s.inMem.size ∧ s.cap.toNat ≤ s.outMem.size

/-- Launch premises P2 or P3, and P4, of DECODE, with the TLEN they give (20_memory.md R64,
43_decode.md R161): a non-negative LEN itself, or for a negative LEN the first index holding 0x00. -/
abbrev State.decodeLegal (s : State) (tlen : Nat) : Prop :=
  s.cap.toNat ≤ s.outMem.size ∧
  (s.len.toNat < 2 ^ (Config.lenW - 1) → tlen = s.len.toNat ∧ s.len.toNat ≤ s.inMem.size) ∧
  (2 ^ (Config.lenW - 1) ≤ s.len.toNat →
    tlen < 2 ^ Config.lenW ∧ s.inMem.read tlen = some 0x00 ∧
    ∀ z < tlen, s.inMem.read z ≠ some 0x00)

/-- `after` is `before` with the unit `u` at index `j` and every other index as it was
(20_memory.md R63). -/
def Memory.Stores (before after : Memory) (j : Nat) (u : Byte) : Prop :=
  after.size = before.size ∧ after.read j = some u ∧ ∀ k, k ≠ j → after.read k = before.read k

/-- A space whose units are those given, then `pad` units 0x00, and no others (30_encoding.md R113). -/
def Memory.Provides (m : Memory) (units : List Byte) (pad : Nat) : Prop :=
  m.wf = true ∧ (∀ i < units.length, m.read i = units[i]?) ∧
  (∀ i, units.length ≤ i → i < units.length + pad → m.read i = some 0x00) ∧
  ∀ i, units.length + pad ≤ i → m.read i = none

/-- The spaces are in the canonical form and no larger than an index reaches (20_memory.md R61). -/
abbrev State.spacesWf (s : State) : Prop :=
  s.inMem.wf = true ∧ s.outMem.wf = true ∧ s.outBefore.wf = true

/-- ERR is OK exactly when STATE is not Failed (10_state.md R25). -/
abbrev State.errFits (s : State) : Prop := s.err = .ok ↔ s.ctl ≠ .failed

/-- 10_state.md R33 (a) and (b). -/
abbrev State.accFits (s : State) : Prop := s.acc.toNat < 2 ^ s.nbits.toNat ∧ s.nbits.toNat ≤ 12

/-- A run of ENCODE: NBITS as 10_state.md R33 (c) has it, and every bit taken in is either written or
still valid, until ENC.FLUSH has written the partial character (42_encode.md R147). -/
abbrev State.encFits (s : State) : Prop :=
  minEncodedLength s.tlen.toNat ≤ s.cap.toNat ∧
  (s.ctl = .accumulating → s.nbits.toNat ∈ [0, 2, 4]) ∧
  (s.ctl = .emitting → s.nbits.toNat ∈ [6, 8, 10, 12]) ∧
  (6 * s.opos.toNat + s.nbits.toNat = 8 * s.ipos.toNat ∨
    (s.ctl = .accumulating ∧ s.ipos = s.tlen ∧ s.nbits = 0 ∧
      s.opos.toNat + 1 = minEncodedLength s.tlen.toNat))

/-- A run of DECODE: NBITS as 10_state.md R33 (d) has it, and no more bits written than taken in
(43_decode.md R168). -/
abbrev State.decFits (s : State) : Prop :=
  maxDecodedLength s.tlen.toNat ≤ s.cap.toNat ∧
  (s.ctl = .accumulating → s.nbits.toNat ∈ [0, 2, 4, 6]) ∧
  (s.ctl = .emitting → s.nbits.toNat ∈ [8, 10, 12]) ∧
  8 * s.opos.toNat + s.nbits.toNat ≤ 6 * s.ipos.toNat

/-- While busy: an ENCODE or a DECODE runs, the cursor is inside the text, and the launch premises
still hold (10_state.md R30, 20_memory.md R64). -/
abbrev State.runFits (s : State) : Prop :=
  s.busy = true →
    s.ipos.toNat ≤ s.tlen.toNat ∧ s.tlen.toNat ≤ s.inMem.size ∧ s.cap.toNat ≤ s.outMem.size ∧
    (s.op = .encode ∧ s.encFits ∨ s.op = .decode ∧ s.decFits)

/-- The alphabet characters among the units before IPOS: the `s` of 43_decode.md R168. -/
def State.symsTaken (s : State) : Nat :=
  (s.inMem.firstUnits s.ipos.toNat).countP fun c => (valueOf c).isSome

/-- While a DECODE runs, the six bits of each alphabet character taken in are either written or still
valid (43_decode.md R165, R166, R168). -/
abbrev State.symsFit (s : State) : Prop :=
  s.busy = true → s.op = .decode → 8 * s.opos.toNat + s.nbits.toNat = 6 * s.symsTaken

/-- The invariant of the block. -/
abbrev State.Inv (s : State) : Prop := s.spacesWf ∧ s.errFits ∧ s.accFits ∧ s.runFits

end Sys2Proof.Machine

namespace Sys2Proof

/-- 44_control.md R194, the changes of STATE that some row makes, reset apart. -/
def CtlState.mayBecome : CtlState → CtlState → Bool
  | .idle, t | .done, t | .failed, t => t == .done || t == .failed || t == .accumulating
  | .accumulating, t => t == .accumulating || t == .emitting || t == .done || t == .failed
  | .emitting, t => t == .emitting || t == .accumulating

/-- The units 30_encoding.md R105 lists as whitespace. -/
abbrev r105Whitespace (c : Byte) : Prop := c.toNat ∈ [0x09, 0x0A, 0x0D, 0x20]

/-- The units 30_encoding.md R105 lists as alphabet characters. -/
abbrev r105Alphabet (c : Byte) : Prop :=
  c.toNat = 0x2D ∨ (0x30 ≤ c.toNat ∧ c.toNat ≤ 0x39) ∨ (0x41 ≤ c.toNat ∧ c.toNat ≤ 0x5A) ∨
  c.toNat = 0x5F ∨ (0x61 ≤ c.toNat ∧ c.toNat ≤ 0x7A)

/-- The units 30_encoding.md R105 lists as invalid. -/
abbrev r105Invalid (c : Byte) : Prop :=
  c.toNat ≤ 0x08 ∨ c.toNat = 0x0B ∨ c.toNat = 0x0C ∨ (0x0E ≤ c.toNat ∧ c.toNat ≤ 0x1F) ∨
  (0x21 ≤ c.toNat ∧ c.toNat ≤ 0x2C) ∨ c.toNat = 0x2E ∨ c.toNat = 0x2F ∨
  (0x3A ≤ c.toNat ∧ c.toNat ≤ 0x40) ∨ (0x5B ≤ c.toNat ∧ c.toNat ≤ 0x5E) ∨ c.toNat = 0x60 ∨
  0x7B ≤ c.toNat

end Sys2Proof
end

