-- ==== Sys2Proof/Certificates/Slice0/Obligations.lean ====
section
/-! DEFINITION. The statements for the provers, by the spec's rules. -/

open Sys2Proof Sys2Proof.Machine

/-! ## Encoding -/

/-- Tier 3, 30_encoding.md R104 to R107: no operand value is lost between an instruction and its word.
For DEC.SYM this is the bijection of 40_alphabet.md R123. -/
def Obligations.DecodeOfEncode : Prop :=
  ∀ i : Instr, i.wellFormed = true → decode (encode i) = .ok i

/-- Whatever word is presented, what the decoder answers is an instruction of the block. -/
def Obligations.DecodedIsWellFormed : Prop :=
  ∀ (w : InstrWord) (i : Instr), decode w = .ok i → i.wellFormed = true

/-- 30_encoding.md R104, R105, R109, R110: only STEP words are ever rejected, and exactly these: a
reserved STATE code, an OP with no STEP row, a DECODE step at a unit that does not exist. -/
def Obligations.RejectedWords : Prop :=
  ∀ w : InstrWord, (∃ e, decode w = .error e) ↔
    ∃ bits k, w = .step bits k ∧
      (5 ≤ bits.toNat % 8 ∨ bits.toNat / 8 < 2 ∨
        (bits = 0b11001 ∧ k.more = true ∧ k.unit = none))

/-- 30_encoding.md R105: the three classes, as the table's ranges list them, each selecting its
micro-step both as a DCHAR word and in the decode pass; disjoint and covering; 4, 64 and 188 units. -/
def Obligations.UnitClasses : Prop :=
  (∀ c : Byte,
    (r105Whitespace c → ∃ w, decode (.dchar c) = .ok (.decWs w) ∧ w.code = c) ∧
    (r105Alphabet c → ∃ v, decode (.dchar c) = .ok (.decSym v) ∧ valueOf c = some v) ∧
    (r105Invalid c → decode (.dchar c) = .ok (.decInv c)) ∧
    (r105Whitespace c ∧ ¬ r105Alphabet c ∧ ¬ r105Invalid c ∨
      ¬ r105Whitespace c ∧ r105Alphabet c ∧ ¬ r105Invalid c ∨
      ¬ r105Whitespace c ∧ ¬ r105Alphabet c ∧ r105Invalid c) ∧
    ∀ k : StepCond, k.more = true → k.unit = some c →
      decode (.step 0b11001 k) = decode (.dchar c)) ∧
  ((List.range 256).countP fun n => r105Whitespace (BitVec.ofNat 8 n)) = 4 ∧
  ((List.range 256).countP fun n => r105Alphabet (BitVec.ofNat 8 n)) = 64 ∧
  ((List.range 256).countP fun n => r105Invalid (BitVec.ofNat 8 n)) = 188

/-- A few words of each format, written from the tables of 30_encoding.md R93, R94, R104, R106. -/
def Obligations.SampleWordsDecode : Prop :=
  decode (.cmd 0b00) = .ok .minlen ∧ decode (.cmd 0b01) = .ok .maxlen ∧
  decode (.cmd 0b10) = .ok .encode ∧ decode (.cmd 0b11) = .ok .decode ∧
  decode (.dchar 0x77) = .ok (.decSym 48) ∧ decode (.dchar 0x0A) = .ok (.decWs .newline) ∧
  decode (.dchar 0x3D) = .ok (.decInv 0x3D) ∧ decode (.eval 0b110000) = .ok (.encSym 48) ∧
  decode (.step 0b10010 ⟨false, true, none⟩) = .ok .encEmit ∧
  decode (.step 0b11001 ⟨false, true, none⟩) = .ok .decEnd ∧
  decode (.step 0b10100 ⟨false, false, none⟩) = .ok (.encStart .failed)

/-! ## The alphabet -/

/-- 30_encoding.md R93: the encoder's table, range by range. -/
def Obligations.CharOfTable : Prop :=
  ∀ v : Sym,
    (v.toNat ≤ 25 → (charOf v).toNat = 0x41 + v.toNat) ∧
    (26 ≤ v.toNat → v.toNat ≤ 51 → (charOf v).toNat = 0x61 + (v.toNat - 26)) ∧
    (52 ≤ v.toNat → v.toNat ≤ 61 → (charOf v).toNat = 0x30 + (v.toNat - 52)) ∧
    (v.toNat = 62 → charOf v = 0x2D) ∧ (v.toNat = 63 → charOf v = 0x5F)

/-- 30_encoding.md R94: INVALID = 0 and VALUE = v for the character of value v; INVALID = 1 and
VALUE = 0 for every other unit. -/
def Obligations.DecLutEntries : Prop :=
  ∀ c : Byte,
    (∀ v : Sym, c = charOf v → decLut c = 0#1 ++ v) ∧
    ((∀ v : Sym, c ≠ charOf v) → decLut c = 1#1 ++ (0 : Sym))

/-- 40_alphabet.md R123. -/
def Obligations.AlphabetBijection : Prop :=
  (∀ v : Sym, valueOf (charOf v) = some v) ∧
  (∀ c : Byte, valueOf c ≠ none ↔ ∃ v, c = charOf v) ∧
  (∀ (c : Byte) (v : Sym), valueOf c = some v → charOf v = c) ∧
  (∀ v v' : Sym, charOf v = charOf v' → v = v') ∧
  (∀ v : Sym, isWhitespace (charOf v) = false ∧ charOf v ≠ 0x00)

/-- 40_alphabet.md R124: whitespace first, the table second. -/
def Obligations.ClassificationOrder : Prop :=
  ∀ c : Byte,
    (isWhitespace c = true → (∃ w, decodeUnit c = .decWs w ∧ w.code = c) ∧ valueOf c = none) ∧
    (isWhitespace c = false → ∀ v, valueOf c = some v → decodeUnit c = .decSym v) ∧
    (isWhitespace c = false → valueOf c = none → decodeUnit c = .decInv c)

/-- 40_alphabet.md R120: the lookup always completes and changes no register, space or flag. That its
result is seen at `charOut` is the model's choice, log entry 12. -/
def Obligations.LookupCompletes : Prop :=
  ∀ (s : State) (v : Sym), ∃ u, exec (.encSym v) s = .next { s with charOut := u } ∧
    valueOf u = some v

/-! ## The size functions and MINLEN, MAXLEN -/

/-- 41_size_functions.md R135, and the rounding that R130 and R131 state: up to whole characters for
the one, down to whole bytes for the other. -/
def Obligations.SizeFunctionLaws : Prop :=
  (∀ n, 8 * n ≤ 6 * (minEncodedLength n - 1) ∧ 6 * (minEncodedLength n - 1) < 8 * n + 6 ∧
    1 ≤ minEncodedLength n) ∧
  (∀ n, 8 * maxDecodedLength n ≤ 6 * n ∧ 6 * n < 8 * maxDecodedLength n + 8) ∧
  (∀ n, maxDecodedLength (minEncodedLength n - 1) = n) ∧
  (∀ n n', n < n' → minEncodedLength n < minEncodedLength n') ∧
  (∀ n n', n ≤ n' → maxDecodedLength n ≤ maxDecodedLength n') ∧
  maxDecodedLength 4 = 3 ∧ maxDecodedLength 5 = 3

/-- 41_size_functions.md R134 (b), for every width of the lengths. -/
def Obligations.SizeResultsFit : Prop :=
  ∀ w n : Nat, 2 ≤ w → n < 2 ^ w →
    1 ≤ minEncodedLength n ∧ minEncodedLength n ≤ 2 ^ (w + 1) - 1 ∧ maxDecodedLength n ≤ n

/-- 41_size_functions.md R132: MINLEN completes in one step from every not-busy state, with the exact
result, and leaves all else; while busy it is ignored. -/
def Obligations.MinlenResult : Prop :=
  ∀ s : State,
    (s.busy = false → ∃ r : ResWord, r.toNat = (s.len.toNat * 8 + 5) / 6 + 1 ∧
      exec .minlen s = .next { s with op := .minlen, err := .ok, result := r, ctl := .done }) ∧
    (s.busy = true → exec .minlen s = .next s)

/-- 41_size_functions.md R133. -/
def Obligations.MaxlenResult : Prop :=
  ∀ s : State,
    (s.busy = false → ∃ r : ResWord, r.toNat = s.len.toNat * 6 / 8 ∧
      exec .maxlen s = .next { s with op := .maxlen, err := .ok, result := r, ctl := .done }) ∧
    (s.busy = true → exec .maxlen s = .next s)

/-! ## ENCODE -/

/-- 42_encode.md R142: on a legal launch ENCODE, and ENC.START in the state it is in, either start the
run or raise InsufficientSpace, which writes OP, TLEN, ERR and STATE only. That a start also records
OUT in `outBefore` is the model's choice, log entry 9. -/
def Obligations.EncodeStarts : Prop :=
  ∀ s : State, s.busy = false → s.encodeLegal →
    ∃ t, exec .encode s = .next t ∧ exec (.encStart s.ctl) s = .next t ∧
      (s.cap.toNat < minEncodedLength s.len.toNat →
        t = { s with op := .encode, err := .insufficientSpace, tlen := s.len, ctl := .failed }) ∧
      (minEncodedLength s.len.toNat ≤ s.cap.toNat →
        t = { s with
          op := .encode, err := .ok, tlen := s.len, acc := 0, nbits := 0, ipos := 0, opos := 0,
          ctl := .accumulating, outBefore := s.outMem })

/-- 42_encode.md R143: ENC.BYTE takes in one byte and changes ACC, NBITS, IPOS and STATE only; with the
accumulator as 10_state.md R33 has it, nothing is lost. -/
def Obligations.EncByteEffect : Prop :=
  ∀ (s : State) (b : Byte), s.encAccumulating → s.ipos.toNat < s.tlen.toNat → s.nbits.toNat < 6 →
    s.inMem.read s.ipos.toNat = some b →
    ∃ (a : AccWord) (n : NbWord) (p : LenWord),
      exec .encByte s = .next { s with acc := a, nbits := n, ipos := p, ctl := .emitting } ∧
      a.toNat = (s.acc.toNat * 256 + b.toNat) % 2 ^ 12 ∧ n.toNat = s.nbits.toNat + 8 ∧
      p.toNat = s.ipos.toNat + 1 ∧
      (s.acc.toNat < 2 ^ s.nbits.toNat → s.nbits.toNat ∈ [0, 2, 4] →
        a.toNat = s.acc.toNat * 256 + b.toNat ∧ a.toNat < 2 ^ n.toNat)

/-- 42_encode.md R144: ENC.EMIT writes the character of the top six valid bits at `OUT:OPOS` and no
other unit, and consumes those bits; a second one follows exactly from NBITS 12, that is after every
third byte. -/
def Obligations.EncEmitEffect : Prop :=
  ∀ s : State, s.encEmitting → s.opos.toNat < s.outMem.size → s.outMem.wf = true →
    ∃ (m : Memory) (u : Byte) (v : Sym) (a : AccWord) (n : NbWord) (st : CtlState),
      exec .encEmit s = .next { s with
        outMem := m, charOut := u, opos := s.opos + 1, nbits := n, acc := a, ctl := st } ∧
      s.outMem.Stores m s.opos.toNat (charOf v) ∧
      v.toNat = s.acc.toNat / 2 ^ (s.nbits.toNat - 6) % 64 ∧ n.toNat = s.nbits.toNat - 6 ∧
      a.toNat = s.acc.toNat % 2 ^ n.toNat ∧
      (6 ≤ n.toNat → st = .emitting) ∧ (n.toNat < 6 → st = .accumulating) ∧
      (s.accFits → n.toNat ≤ 6 ∧ (st = .emitting ↔ s.nbits = 12)) ∧
      (s.Inv → (s.nbits = 12 ∨ s.nbits = 6 ↔ s.ipos.toNat % 3 = 0))

/-- 42_encode.md R145: ENC.FLUSH writes the remaining bits, zeros below them, as one character; ENC.TERM
is next; in a run only 2 or 4 bits can remain, by LEN mod 3. -/
def Obligations.EncFlushEffect : Prop :=
  ∀ s : State, s.encAccumulating → s.ipos = s.tlen → 0 < s.nbits.toNat → s.nbits.toNat < 6 →
    s.opos.toNat < s.outMem.size → s.outMem.wf = true →
    ∃ (m : Memory) (u : Byte) (v : Sym) (t : State),
      exec .encFlush s = .next t ∧
      t = { s with
        outMem := m, charOut := u, opos := s.opos + 1, acc := 0, nbits := 0,
        ctl := .accumulating } ∧
      s.outMem.Stores m s.opos.toNat (charOf v) ∧
      v.toNat = s.acc.toNat * 2 ^ (6 - s.nbits.toNat) % 64 ∧
      (s.acc.toNat < 2 ^ s.nbits.toNat → v.toNat = s.acc.toNat * 2 ^ (6 - s.nbits.toNat)) ∧
      (t.inputs = [] → step t = exec .encTerm t) ∧
      (s.Inv → s.nbits.toNat = 2 ∧ s.tlen.toNat % 3 = 1 ∨ s.nbits.toNat = 4 ∧ s.tlen.toNat % 3 = 2)

/-- 42_encode.md R146: ENC.TERM writes 0x00 at `OUT:OPOS`, does not advance OPOS, and reports the
characters before it. -/
def Obligations.EncTermEffect : Prop :=
  ∀ s : State, s.encAccumulating → s.ipos = s.tlen → s.nbits = 0 →
    s.opos.toNat < s.outMem.size → s.outMem.wf = true →
    ∃ m, exec .encTerm s = .next { s with outMem := m, count := s.opos, ctl := .done } ∧
      s.outMem.Stores m s.opos.toNat 0x00

/-- Tier 3, 42_encode.md R141, R147: the run of an accepted ENCODE, in exactly the steps R147 counts (it
is busy after each of them but the last), ends Done with the reference text at `OUT:0` up and nothing
else changed in OUT. -/
def Obligations.EncodeComputesReference : Prop :=
  ∀ s : State, s.busy = false → s.inMem.wf = true → s.outMem.wf = true → s.encodeLegal →
    minEncodedLength s.len.toNat ≤ s.cap.toNat → s.inputs = [.write 0 2] →
    ∃ t,
      core.run (1 + s.len.toNat + 8 * s.len.toNat / 6 +
        (if s.len.toNat % 3 = 0 then 0 else 1) + 1) s = .next t ∧
      (∀ k, 1 ≤ k → k < 1 + s.len.toNat + 8 * s.len.toNat / 6 +
        (if s.len.toNat % 3 = 0 then 0 else 1) + 1 →
        ∃ u, core.run k s = .next u ∧ u.busy = true) ∧
      t.ctl = .done ∧ t.err = .ok ∧ t.op = .encode ∧
      t.count.toNat + 1 = minEncodedLength s.len.toNat ∧
      (∀ j < minEncodedLength s.len.toNat,
        t.outMem.read j = (encText (s.inMem.firstUnits s.len.toNat))[j]?) ∧
      (∀ j, minEncodedLength s.len.toNat ≤ j → t.outMem.read j = s.outMem.read j) ∧
      t.inMem = s.inMem ∧ t.len = s.len ∧ t.cap = s.cap ∧ t.result = s.result

/-! ## DECODE -/

/-- 43_decode.md R161: on a legal launch of text length `l` DECODE, and DEC.START in the state it is
in, either start the run or raise InsufficientSpace, whatever the text holds. That a start also records
OUT in `outBefore` is the model's choice, log entry 9. -/
def Obligations.DecodeStarts : Prop :=
  ∀ (s : State) (l : Nat), s.busy = false → s.decodeLegal l →
    ∃ (t : State) (tl : LenWord), tl.toNat = l ∧
      exec .decode s = .next t ∧ exec (.decStart s.ctl) s = .next t ∧
      (s.cap.toNat < maxDecodedLength l →
        t = { s with op := .decode, err := .insufficientSpace, tlen := tl, ctl := .failed }) ∧
      (maxDecodedLength l ≤ s.cap.toNat →
        t = { s with
          op := .decode, err := .ok, tlen := tl, acc := 0, nbits := 0, ipos := 0, opos := 0,
          ctl := .accumulating, outBefore := s.outMem })

/-- 43_decode.md R163: DEC.WS moves IPOS and nothing else. -/
def Obligations.DecWsEffect : Prop :=
  ∀ (s : State) (w : Whitespace), s.decAccumulating → s.ipos.toNat < s.tlen.toNat →
    s.inMem.read s.ipos.toNat = some w.code →
    ∃ p : LenWord, p.toNat = s.ipos.toNat + 1 ∧ exec (.decWs w) s = .next { s with ipos := p }

/-- 43_decode.md R164: DEC.INV moves IPOS and raises InvalidInput; COUNT and OUT stay. -/
def Obligations.DecInvEffect : Prop :=
  ∀ (s : State) (c : Byte), s.decAccumulating → s.ipos.toNat < s.tlen.toNat →
    s.inMem.read s.ipos.toNat = some c → r105Invalid c →
    ∃ p : LenWord, p.toNat = s.ipos.toNat + 1 ∧
      exec (.decInv c) s = .next { s with ipos := p, err := .invalidInput, ctl := .failed }

/-- 43_decode.md R165: DEC.SYM takes in one value and changes ACC, NBITS, IPOS and STATE only; with the
accumulator as 10_state.md R33 has it, nothing is lost, and STATE stays Accumulating only from NBITS 0,
that is for the first character of every group of four. -/
def Obligations.DecSymEffect : Prop :=
  ∀ (s : State) (c : Byte) (v : Sym), s.decAccumulating → s.ipos.toNat < s.tlen.toNat →
    s.inMem.read s.ipos.toNat = some c → valueOf c = some v → s.nbits.toNat < 8 →
    ∃ (a : AccWord) (n : NbWord) (p : LenWord) (st : CtlState),
      exec (.decSym v) s = .next { s with acc := a, nbits := n, ipos := p, ctl := st } ∧
      a.toNat = (s.acc.toNat * 64 + v.toNat) % 2 ^ 12 ∧ n.toNat = s.nbits.toNat + 6 ∧
      p.toNat = s.ipos.toNat + 1 ∧
      (8 ≤ n.toNat → st = .emitting) ∧ (n.toNat < 8 → st = .accumulating) ∧
      (s.acc.toNat < 2 ^ s.nbits.toNat → s.nbits.toNat ∈ [0, 2, 4, 6] →
        a.toNat = s.acc.toNat * 64 + v.toNat ∧ a.toNat < 2 ^ n.toNat ∧
        (st = .accumulating ↔ s.nbits = 0)) ∧
      (s.Inv → s.symsFit → (s.nbits = 0 ↔ s.symsTaken % 4 = 0))

/-- 43_decode.md R168: every step keeps the count of the alphabet characters taken in, which
DecSymEffect has as a premise. -/
def Obligations.SymCountIsKept : Prop :=
  ∀ s t : State, s.Inv → s.symsFit → step s = .next t → t.symsFit

/-- 43_decode.md R166: DEC.EMIT writes the top eight valid bits at `OUT:OPOS` and no other unit,
consumes them, and always goes back to Accumulating. -/
def Obligations.DecEmitEffect : Prop :=
  ∀ s : State, s.decEmitting → s.opos.toNat < s.outMem.size → s.outMem.wf = true →
    ∃ (m : Memory) (u : Byte) (a : AccWord) (n : NbWord),
      exec .decEmit s = .next { s with
        outMem := m, opos := s.opos + 1, nbits := n, acc := a, ctl := .accumulating } ∧
      s.outMem.Stores m s.opos.toNat u ∧
      u.toNat = s.acc.toNat / 2 ^ (s.nbits.toNat - 8) % 256 ∧ n.toNat = s.nbits.toNat - 8 ∧
      a.toNat = s.acc.toNat % 2 ^ n.toNat ∧ (s.accFits → n.toNat ≤ 4)

/-- 43_decode.md R167: DEC.END reports the bytes written and drops the bits left, whatever they are. -/
def Obligations.DecEndEffect : Prop :=
  ∀ s : State, s.decAccumulating → s.ipos = s.tlen →
    exec .decEnd s = .next { s with count := s.opos, ctl := .done }

/-- Tier 3, 43_decode.md R162, R168: the run of an accepted DECODE ends, within the bound of
44_control.md R199, with the reference bytes at `OUT:0` up and nothing else changed in OUT: Done with
their number in COUNT, or Failed with InvalidInput and COUNT as it was when the text holds an invalid
unit. -/
def Obligations.DecodeComputesReference : Prop :=
  ∀ (s : State) (l : Nat), s.busy = false → s.inMem.wf = true → s.outMem.wf = true →
    s.decodeLegal l → maxDecodedLength l ≤ s.cap.toNat → s.inputs = [.write 0 3] →
    ∃ (k : Nat) (t : State), 1 ≤ k ∧ k ≤ 1 + l + 6 * l / 8 + 1 ∧ core.run k s = .next t ∧
      (validPrefix (s.inMem.firstUnits l) = s.inMem.firstUnits l →
        t.ctl = .done ∧ t.err = .ok ∧
        t.count.toNat = (decBytes (s.inMem.firstUnits l)).length) ∧
      (validPrefix (s.inMem.firstUnits l) ≠ s.inMem.firstUnits l →
        t.ctl = .failed ∧ t.err = .invalidInput ∧ t.count = s.count) ∧
      (∀ j < (decBytes (s.inMem.firstUnits l)).length,
        t.outMem.read j = (decBytes (s.inMem.firstUnits l))[j]?) ∧
      (∀ j, (decBytes (s.inMem.firstUnits l)).length ≤ j → t.outMem.read j = s.outMem.read j) ∧
      t.inMem = s.inMem ∧ t.len = s.len ∧ t.cap = s.cap ∧ t.result = s.result ∧ t.op = .decode

/-- Tier 3, 43_decode.md R170, of the reference functions: the text of any bytes is valid throughout,
has the length COUNT reports, and decodes to those bytes. -/
def Obligations.RoundTrip : Prop :=
  ∀ bytes : List Byte,
    decBytes (encChars bytes) = bytes ∧ validPrefix (encChars bytes) = encChars bytes ∧
    (encChars bytes).length + 1 = minEncodedLength bytes.length ∧
    maxDecodedLength (encChars bytes).length = bytes.length

/-! ## Control, errors -/

/-- A step runs the instruction that the presented word decodes to: the host's write to CMD, on the
state without that action; the engine's STEP word, on the state with the host's remaining actions. That
the host's actions are a list is the model's choice, log entry 3; that the engine moves while the host
waits (30_encoding.md R113) and the WAIT stays pending is log entry 17. -/
def Obligations.StepRunsPresentedWord : Prop :=
  ∀ (s : State) (i : Instr),
    (∀ data rest, s.inputs = .write 0 data :: rest → decode (.cmd (data.setWidth 2)) = .ok i →
      step s = exec i { s with inputs := rest }) ∧
    (s.busy = true → decode s.engineWord = .ok i →
      (s.inputs = [] → step s = exec i s) ∧
      (∀ rest, s.inputs = .wait :: rest → step s = exec i s) ∧
      (∀ rest, s.inputs = .engine :: rest → step s = exec i { s with inputs := rest }))

/-- 30_encoding.md R106, 44_control.md R195, R196: which micro-step the engine takes next. -/
def Obligations.StepDispatch : Prop :=
  ∀ s : State, s.inputs = [] →
    (s.op = .encode → s.ctl = .accumulating → s.ipos.toNat < s.tlen.toNat →
      step s = exec .encByte s) ∧
    (s.op = .encode → s.ctl = .accumulating → s.ipos = s.tlen → s.nbits ≠ 0 →
      step s = exec .encFlush s) ∧
    (s.op = .encode → s.ctl = .accumulating → s.ipos = s.tlen → s.nbits = 0 →
      step s = exec .encTerm s) ∧
    (s.op = .encode → s.ctl = .emitting → step s = exec .encEmit s) ∧
    (∀ c, s.op = .decode → s.ctl = .accumulating → s.ipos.toNat < s.tlen.toNat →
      s.inMem.read s.ipos.toNat = some c →
      (r105Whitespace c → ∃ w, w.code = c ∧ step s = exec (.decWs w) s) ∧
      (∀ v, c = charOf v → step s = exec (.decSym v) s) ∧
      (r105Invalid c → step s = exec (.decInv c) s)) ∧
    (s.op = .decode → s.ctl = .accumulating → s.ipos = s.tlen → step s = exec .decEnd s) ∧
    (s.op = .decode → s.ctl = .emitting → step s = exec .decEmit s)

/-- 10_state.md R21, 44_control.md R190: a write to CMD runs the command of `data[1:0]`; the bits above
are ignored. -/
def Obligations.CommandWrite : Prop :=
  ∀ (s : State) (data : LenWord) (rest : List HostAction), s.inputs = .write 0 data :: rest →
    (data.toNat % 4 = 0 → step s = exec .minlen { s with inputs := rest }) ∧
    (data.toNat % 4 = 1 → step s = exec .maxlen { s with inputs := rest }) ∧
    (data.toNat % 4 = 2 → step s = exec .encode { s with inputs := rest }) ∧
    (data.toNat % 4 = 3 → step s = exec .decode { s with inputs := rest })

/-- 44_control.md R191: while busy every register write is dropped, reads return the current values,
and STATUS reads Accumulating or Emitting with ERR = 0. -/
def Obligations.BusyBlockIgnoresWrites : Prop :=
  ∀ (s : State) (rest : List HostAction), s.busy = true →
    (∀ n data, s.inputs = .write n data :: rest → step s = .next { s with inputs := rest }) ∧
    (∀ n, s.inputs = .read n :: rest →
      ∃ r : ResWord, step s = .next { s with inputs := rest, rdata := r } ∧
        (n = 0 → r.toNat = s.op.code.toNat) ∧ (n = 1 → r.toNat = s.len.toNat) ∧
        (n = 2 → r.toNat = s.cap.toNat) ∧ (n = 4 → r.toNat = s.count.toNat) ∧
        (n = 5 → r = s.result) ∧
        (n = 3 → s.Inv →
          s.ctl = .accumulating ∧ r.toNat = 0x01 ∨ s.ctl = .emitting ∧ r.toNat = 0x02))

/-- 10_state.md R20 to R24, R27, not busy: LEN and CAP take the data, the read-only registers and the
numbers above 5 take nothing, and reads return the registers with no effect on any. -/
def Obligations.RegisterPort : Prop :=
  ∀ (s : State) (rest : List HostAction) (data : LenWord), s.busy = false →
    (s.inputs = .write 1 data :: rest → step s = .next { s with inputs := rest, len := data }) ∧
    (s.inputs = .write 2 data :: rest → step s = .next { s with inputs := rest, cap := data }) ∧
    (∀ n, 3 ≤ n → s.inputs = .write n data :: rest → step s = .next { s with inputs := rest }) ∧
    (∀ n, s.inputs = .read n :: rest →
      ∃ r : ResWord, step s = .next { s with inputs := rest, rdata := r } ∧
        (n = 0 → r.toNat = s.op.code.toNat) ∧ (n = 1 → r.toNat = s.len.toNat) ∧
        (n = 2 → r.toNat = s.cap.toNat) ∧
        (n = 3 → r.toNat = 8 * s.err.code.toNat + s.ctl.code.toNat) ∧
        (n = 4 → r.toNat = s.count.toNat) ∧ (n = 5 → r = s.result) ∧ (6 ≤ n → r = 0))

/-- 44_control.md R194, R198: STATE changes only along the table, and only reset enters Idle. -/
def Obligations.StateTableIsComplete : Prop :=
  ∀ s t : State, step s = .next t →
    t.ctl = s.ctl ∨ s.ctl.mayBecome t.ctl = true ∨
      t.ctl = .idle ∧ ∃ rest, s.inputs = .reset :: rest

/-- 44_control.md R198, 60_exceptions.md R217: a command does not depend on which of Idle, Done and
Failed it is accepted in, nor on the error reported there. -/
def Obligations.AcceptanceIgnoresLastOutcome : Prop :=
  ∀ (s : State) (a b : CtlState) (e e' : ErrKind) (i : Instr),
    i ∈ [Instr.minlen, .maxlen, .encode, .decode] → a.busy = false → b.busy = false →
    exec i { s with ctl := a, err := e } = exec i { s with ctl := b, err := e' }

/-- 44_control.md R198, 60_exceptions.md R223: not busy, and with neither a register write nor a reset
at hand, no register changes. -/
def Obligations.NotBusyIsStable : Prop :=
  ∀ s t : State, s.busy = false → (∀ n data rest, s.inputs ≠ .write n data :: rest) →
    (∀ rest, s.inputs ≠ .reset :: rest) → step s = .next t →
    t.op = s.op ∧ t.len = s.len ∧ t.cap = s.cap ∧ t.ctl = s.ctl ∧ t.err = s.err ∧
    t.count = s.count ∧ t.result = s.result ∧ t.acc = s.acc ∧ t.nbits = s.nbits ∧
    t.ipos = s.ipos ∧ t.opos = s.opos ∧ t.tlen = s.tlen

/-- 60_exceptions.md R211, R212: each error kind is raised by its own steps only, and only for its
cause. -/
def Obligations.ErrorCauses : Prop :=
  ∀ (i : Instr) (s t : State), exec i s = .next t → t.err ≠ s.err →
    (t.err = .insufficientSpace →
      (i = .encode ∨ i = .encStart s.ctl) ∧ s.cap.toNat < minEncodedLength s.len.toNat ∨
      (i = .decode ∨ i = .decStart s.ctl) ∧ s.cap.toNat < maxDecodedLength t.tlen.toNat) ∧
    (t.err = .invalidInput →
      ∃ c, i = .decInv c ∧ r105Invalid c ∧ s.inMem.read s.ipos.toNat = some c)

/-- 60_exceptions.md R215, R216: in an instruction that ends in Failed nothing is written but ERR,
STATE, the accepted OP and TLEN, and, by DEC.INV, IPOS; and ERR says which error it is. -/
def Obligations.FailureIsPrecise : Prop :=
  ∀ (i : Instr) (s t : State), exec i s = .next t → t.ctl = .failed →
    t.count = s.count ∧ t.result = s.result ∧ t.len = s.len ∧ t.cap = s.cap ∧
    t.inMem = s.inMem ∧ t.outMem = s.outMem ∧ t.acc = s.acc ∧ t.nbits = s.nbits ∧
    t.opos = s.opos ∧ (s.errFits → t.err ≠ .ok) ∧
    (t.ipos ≠ s.ipos → ∃ c, i = .decInv c) ∧
    (s.busy = true → t.op = s.op ∧ t.tlen = s.tlen)

/-- 10_state.md R22, R23, 20_memory.md R60, R62: no instruction writes LEN, CAP or a unit of IN. -/
def Obligations.EngineLeavesOperands : Prop :=
  ∀ (i : Instr) (s t : State), exec i s = .next t →
    t.len = s.len ∧ t.cap = s.cap ∧ t.inMem = s.inMem

/-- 10_state.md R26, R27: COUNT is written by ENC.TERM and DEC.END only, RESULT by MINLEN and MAXLEN
only. -/
def Obligations.ResultWriters : Prop :=
  ∀ (i : Instr) (s t : State), exec i s = .next t →
    (t.count ≠ s.count → i = .encTerm ∨ i = .decEnd) ∧
    (t.result ≠ s.result → i = .minlen ∨ i = .maxlen)

/-- 20_memory.md R63, R69: the only unit of OUT an instruction can change is `OUT:OPOS`, and only the
four writing steps change it. -/
def Obligations.OutWriters : Prop :=
  ∀ (i : Instr) (s t : State) (j : Nat), exec i s = .next t → t.outMem.read j ≠ s.outMem.read j →
    j = s.opos.toNat ∧ i ∈ [Instr.encEmit, .encFlush, .encTerm, .decEmit]

/-- A micro-step asked for in a not-busy state is refused by name, since 44_control.md R194 has no such
transition. That it is a refusal is the model's choice, log entry 10. -/
def Obligations.MicroStepNeedsBusy : Prop :=
  ∀ (s : State) (w : Whitespace) (c : Byte) (v : Sym), s.busy = false →
    exec .encByte s = .refused (.notEnabled "ENC.BYTE") ∧
    exec .encEmit s = .refused (.notEnabled "ENC.EMIT") ∧
    exec .encFlush s = .refused (.notEnabled "ENC.FLUSH") ∧
    exec .encTerm s = .refused (.notEnabled "ENC.TERM") ∧
    exec (.decWs w) s = .refused (.notEnabled "DEC.WS") ∧
    exec (.decInv c) s = .refused (.notEnabled "DEC.INV") ∧
    exec (.decSym v) s = .refused (.notEnabled "DEC.SYM") ∧
    exec .decEmit s = .refused (.notEnabled "DEC.EMIT") ∧
    exec .decEnd s = .refused (.notEnabled "DEC.END")

/-! ## Spaces and launches -/

/-- 20_memory.md R64 P1 to P4: a launch that breaks a premise gets no next state, neither from the
command nor from the START step in the state it is in. Which premise is named first is the model's
choice, log entry 7. -/
def Obligations.IllegalLaunchRefused : Prop :=
  ∀ s : State, s.busy = false →
    (∀ i ∈ [Instr.encode, .encStart s.ctl],
      (s.inMem.size < s.len.toNat → exec i s = .refused .launchInputTooShort) ∧
      (s.len.toNat ≤ s.inMem.size → s.outMem.size < s.cap.toNat →
        exec i s = .refused .launchOutputTooShort)) ∧
    (∀ i ∈ [Instr.decode, .decStart s.ctl],
      (s.len.toNat < 2 ^ (Config.lenW - 1) → s.inMem.size < s.len.toNat →
        exec i s = .refused .launchInputTooShort) ∧
      (2 ^ (Config.lenW - 1) ≤ s.len.toNat → (∀ z, s.inMem.read z ≠ some 0x00) →
        exec i s = .refused .launchNoTerminator) ∧
      (s.outMem.size < s.cap.toNat → ∃ r, exec i s = .refused r ∧
        r ∈ [Refusal.launchInputTooShort, .launchNoTerminator, .launchOutputTooShort]))

/-- 20_memory.md R64 P5, 30_encoding.md R113: the host provides a space when the block is not busy, and
reads back from it what it gave; while busy this is refused. -/
def Obligations.ProvidedUnits : Prop :=
  ∀ (s : State) (units : List Byte) (pad : Nat) (rest : List HostAction),
    (s.inputs = .provideIn units pad :: rest →
      (s.busy = true → step s = .refused .hostTouchedSpaceWhileBusy) ∧
      (s.busy = false → units.length + pad ≤ 2 ^ Config.lenW →
        ∃ m : Memory, step s = .next { s with inputs := rest, inMem := m } ∧
          m.Provides units pad)) ∧
    (s.inputs = .provideOut units pad :: rest →
      (s.busy = true → step s = .refused .hostTouchedSpaceWhileBusy) ∧
      (s.busy = false → units.length + pad ≤ 2 ^ Config.lenW →
        ∃ m : Memory, step s = .next { s with inputs := rest, outMem := m } ∧
          m.Provides units pad))

/-- 20_memory.md R75: a host read of OUT gives the unit when not busy; while busy, its present value or
the one of acceptance, for every choice of the free value (log entry 9). That a read while not busy needs
no read of STATUS before it is the model's choice, log entry 25. -/
def Obligations.HostReadOfOut : Prop :=
  ∀ (s : State) (j : Nat) (now : Byte) (rest : List HostAction),
    s.inputs = .readOut j :: rest → s.outMem.read j = some now →
    ∃ (r : ResWord) (k : Nat),
      step s = .next { s with inputs := rest, rdata := r, freeCount := k } ∧
      (s.busy = false → r.toNat = now.toNat) ∧
      (s.busy = true → r.toNat = now.toNat ∨
        ∃ old, s.outBefore.read j = some old ∧ r.toNat = old.toNat)

/-- 20_memory.md R60: equal contents are equal data. Two spaces of one size in the canonical form that
read alike are the same. -/
def Obligations.CanonicalSpacesAreExtensional : Prop :=
  ∀ m m' : Memory, m.wf = true → m'.wf = true → m.size = m'.size →
    (∀ i, m.read i = m'.read i) → m = m'

/-- 20_memory.md R70: no step changes a unit of OUT at or above CAP, but for the host providing OUT. -/
def Obligations.NoWriteAtOrAboveCap : Prop :=
  ∀ s t : State, s.Inv → (∀ units pad rest, s.inputs ≠ .provideOut units pad :: rest) →
    step s = .next t → ∀ j, s.cap.toNat ≤ j → t.outMem.read j = s.outMem.read j

/-! ## Reset, WAIT, and the whole machine -/

/-- 70_reset_and_hazards.md R231, R232: reset, in any state, zeroes every register and leaves both
spaces. -/
def Obligations.ResetEffect : Prop :=
  ∀ (s : State) (rest : List HostAction), s.inputs = .reset :: rest →
    ∃ u, step s = .next { s with
        op := .minlen, len := 0, cap := 0, ctl := .idle, err := .ok, count := 0, result := 0,
        acc := 0, nbits := 0, ipos := 0, opos := 0, tlen := 0, charOut := u, inputs := rest }

/-- 10_state.md R38: after reset every register reads 0, and the block is Idle and not busy. -/
def Obligations.ResetState : Prop :=
  (∀ n, State.reset.portRead n = 0) ∧ State.reset.ctl = .idle ∧ State.reset.err = .ok ∧
  State.reset.busy = false ∧ State.reset.acc = 0 ∧ State.reset.nbits = 0 ∧
  State.reset.ipos = 0 ∧ State.reset.opos = 0 ∧ State.reset.tlen = 0

/-- 30_encoding.md R113 `WAIT`: over once STATE is Done or Failed, with STATUS read; until then, while
busy, the engine takes its micro-step and the host goes on waiting, and in Idle nothing changes. WAIT
as one action is the model's choice, log entry 17. -/
def Obligations.WaitPollsStatus : Prop :=
  ∀ (s : State) (rest : List HostAction), s.inputs = .wait :: rest →
    (s.ctl = .done ∨ s.ctl = .failed →
      ∃ r : ResWord, step s = .next { s with inputs := rest, rdata := r } ∧
        r.toNat = 8 * s.err.code.toNat + s.ctl.code.toNat) ∧
    (s.busy = true → (∀ i, decode s.engineWord = .ok i → step s = exec i s) ∧
      ∀ t, step s = .next t → t.inputs = s.inputs) ∧
    (s.ctl = .idle → step s = .next s)

/-- Tier 3: every step from every state that meets the invariant gives a state that meets it
(10_state.md R25, R30, R33; 42_encode.md R147; 43_decode.md R168; the canonical form of the spaces). -/
def Obligations.StepKeepsInvariant : Prop :=
  ∀ s t : State, s.Inv → step s = .next t → t.Inv

/-- The invariant holds right after reset. -/
def Obligations.InvariantAtReset : Prop := State.reset.Inv

/-- Tier 3, 44_control.md R199: a busy engine is never blocked: its step always has a next state. -/
def Obligations.BusyEngineProgresses : Prop :=
  ∀ s : State, s.Inv → s.busy = true → s.inputs = [] → ∃ t, step s = .next t

/-- Tier 3, 44_control.md R199: every accepted command reaches Done or Failed within the step bounds.
`t0` is the state after acceptance, the first of the `k` steps. -/
def Obligations.CommandsEnd : Prop :=
  ∀ (s t0 : State) (data : LenWord), s.Inv → s.busy = false → s.inputs = [.write 0 data] →
    step s = .next t0 →
    ∃ (k : Nat) (t : State), 1 ≤ k ∧ core.run k s = .next t ∧ (t.ctl = .done ∨ t.ctl = .failed) ∧
      (t0.op = .encode → k ≤ 1 + t0.tlen.toNat + 8 * t0.tlen.toNat / 6 + 2) ∧
      (t0.op = .decode → k ≤ 1 + t0.tlen.toNat + 6 * t0.tlen.toNat / 8 + 1) ∧
      (t0.op = .minlen ∨ t0.op = .maxlen → k = 1)
end

