-- ==== Sys2Proof/Laws/Memory.lean ====
section
/-! SUPPORT. The laws of the spaces: read after write, a write elsewhere, and the canonical form. -/

namespace Sys2Proof.Machine

theorem cellsWf_cons {size lo a : Nat} {u : Byte} {rest : List Host.Cell} :
    cellsWf size lo ((a, u) :: rest) = true ↔
      lo ≤ a ∧ a < size ∧ u ≠ Memory.unlisted ∧ cellsWf size (a + 1) rest = true := by
  simp [cellsWf, and_assoc]

/-- A lower start is a weaker demand. -/
theorem cellsWf_lower {size lo lo' : Nat} {cells : List Host.Cell} (h : lo' ≤ lo)
    (w : cellsWf size lo cells = true) : cellsWf size lo' cells = true := by
  cases cells with
  | nil => rfl
  | cons c rest =>
    obtain ⟨a, u⟩ := c
    rw [cellsWf_cons] at w ⊢
    exact ⟨Nat.le_trans h w.1, w.2⟩

/-- An index below the listed ones is unlisted. -/
theorem lookupCell_below {size lo : Nat} {cells : List Host.Cell} (w : cellsWf size lo cells = true)
    {i : Nat} (h : i < lo) : lookupCell cells i = Memory.unlisted := by
  induction cells generalizing lo with
  | nil => rfl
  | cons c rest ih =>
    obtain ⟨a, u⟩ := c
    rw [cellsWf_cons] at w
    have : ¬ a = i := by omega
    simp only [lookupCell, this, if_false]
    exact ih w.2.2.2 (by omega)

theorem lookupCell_consCell (j : Nat) (u : Byte) (cells : List Host.Cell) (i : Nat) :
    lookupCell (consCell j u cells) i =
      if u = Memory.unlisted then lookupCell cells i
      else if j = i then u else lookupCell cells i := by
  unfold consCell
  split <;> simp [lookupCell]

theorem cellsWf_consCell {size lo j : Nat} {u : Byte} {cells : List Host.Cell}
    (hlo : lo ≤ j) (hj : j < size) (w : cellsWf size (j + 1) cells = true) :
    cellsWf size lo (consCell j u cells) = true := by
  unfold consCell
  split
  · exact cellsWf_lower (by omega) w
  · rw [cellsWf_cons]; exact ⟨hlo, hj, ‹_›, w⟩

theorem lookupCell_putCell_same {size lo : Nat} {cells : List Host.Cell}
    (w : cellsWf size lo cells = true) (j : Nat) (u : Byte) :
    lookupCell (putCell cells j u) j = u := by
  induction cells generalizing lo with
  | nil => rw [putCell, lookupCell_consCell]; split <;> simp_all [lookupCell]
  | cons c rest ih =>
    obtain ⟨a, v⟩ := c
    have w' := cellsWf_cons.mp w
    rw [putCell]
    split
    · have : ¬ a = j := by omega
      simp only [lookupCell, this, if_false]
      exact ih w'.2.2.2
    · split
      · rw [lookupCell_consCell, lookupCell_below w'.2.2.2 (by omega)]
        split <;> simp_all
      · have below : lookupCell ((a, v) :: rest) j = Memory.unlisted :=
          lookupCell_below (cellsWf_cons.mpr ⟨Nat.le_refl a, w'.2⟩) (by omega)
        rw [lookupCell_consCell, below]
        split <;> simp_all

theorem lookupCell_putCell_other (cells : List Host.Cell) {j k : Nat} (u : Byte) (h : k ≠ j) :
    lookupCell (putCell cells j u) k = lookupCell cells k := by
  have hjk : ¬ j = k := fun e => h e.symm
  induction cells with
  | nil => simp [putCell, lookupCell_consCell, hjk]
  | cons c rest ih =>
    obtain ⟨a, v⟩ := c
    rw [putCell]
    split
    · simp only [lookupCell, ih]
    · split
      · rename_i e
        subst e
        simp [lookupCell_consCell, lookupCell, hjk]
      · simp [lookupCell_consCell, hjk]

theorem cellsWf_putCell {size lo j : Nat} {cells : List Host.Cell} {u : Byte}
    (w : cellsWf size lo cells = true) (hlo : lo ≤ j) (hj : j < size) :
    cellsWf size lo (putCell cells j u) = true := by
  induction cells generalizing lo with
  | nil => exact cellsWf_consCell hlo hj rfl
  | cons c rest ih =>
    obtain ⟨a, v⟩ := c
    have w' := cellsWf_cons.mp w
    rw [putCell]
    split
    · exact cellsWf_cons.mpr ⟨w'.1, w'.2.1, w'.2.2.1, ih w'.2.2.2 (by omega)⟩
    · split
      · rename_i e
        subst e
        exact cellsWf_consCell w'.1 hj w'.2.2.2
      · exact cellsWf_consCell hlo hj (cellsWf_cons.mpr ⟨by omega, w'.2⟩)

/-- All that a write can do (20_memory.md R63). -/
theorem Memory.write_eq_some {m m' : Memory} {j : Nat} {u : Byte} :
    m.write j u = some m' ↔ j < m.size ∧ m' = { m with cells := putCell m.cells j u } := by
  unfold Memory.write
  split <;> simp_all [eq_comm]

theorem Memory.read_eq_some {m : Memory} {i : Nat} {u : Byte} :
    m.read i = some u ↔ i < m.size ∧ lookupCell m.cells i = u := by
  unfold Memory.read
  split <;> simp_all

theorem Memory.wf_iff {m : Memory} :
    m.wf = true ↔ m.size ≤ 2 ^ Config.lenW ∧ cellsWf m.size 0 m.cells = true := by
  simp [Memory.wf]

theorem Memory.write_size {m m' : Memory} {j : Nat} {u : Byte} (h : m.write j u = some m') :
    m'.size = m.size := by
  rw [Memory.write_eq_some] at h; rw [h.2]

/-- A write keeps the canonical form. -/
theorem Memory.write_wf {m m' : Memory} {j : Nat} {u : Byte} (h : m.write j u = some m')
    (w : m.wf = true) : m'.wf = true := by
  obtain ⟨hj, rfl⟩ := Memory.write_eq_some.mp h
  obtain ⟨hs, hc⟩ := Memory.wf_iff.mp w
  exact Memory.wf_iff.mpr ⟨hs, cellsWf_putCell hc (Nat.zero_le j) hj⟩

theorem Memory.read_write_same {m m' : Memory} {j : Nat} {u : Byte} (h : m.write j u = some m')
    (w : m.wf = true) : m'.read j = some u := by
  obtain ⟨hj, rfl⟩ := Memory.write_eq_some.mp h
  exact Memory.read_eq_some.mpr ⟨hj, lookupCell_putCell_same (Memory.wf_iff.mp w).2 j u⟩

theorem Memory.read_write_other {m m' : Memory} {j k : Nat} {u : Byte} (h : m.write j u = some m')
    (hk : k ≠ j) : m'.read k = m.read k := by
  obtain ⟨-, rfl⟩ := Memory.write_eq_some.mp h
  simp [Memory.read, lookupCell_putCell_other m.cells u hk]

theorem cellsWf_cellsOfUnits {size : Nat} (units : List Byte) (k : Nat) (h : k + units.length ≤ size) :
    cellsWf size k (cellsOfUnits k units) = true := by
  induction units generalizing k with
  | nil => rfl
  | cons u rest ih =>
    simp only [List.length_cons] at h
    exact cellsWf_consCell (Nat.le_refl k) (by omega) (ih (k + 1) (by omega))

/-- The space the host provides is in the canonical form. -/
theorem Memory.ofUnits_wf {units : List Byte} {pad : Nat} (h : units.length + pad ≤ 2 ^ Config.lenW) :
    (Memory.ofUnits units pad).wf = true :=
  Memory.wf_iff.mpr ⟨h, cellsWf_cellsOfUnits units 0 (by simp [Memory.ofUnits])⟩

theorem Memory.absent_wf : Memory.absent.wf = true := by decide

theorem State.reset_spaces_wf :
    State.reset.inMem.wf = true ∧ State.reset.outMem.wf = true ∧ State.reset.outBefore.wf = true :=
  ⟨Memory.absent_wf, Memory.absent_wf, Memory.absent_wf⟩

end Sys2Proof.Machine
end

