-- ==== Sys2Proof/Laws/Operands.lean ====
section
/-! SUPPORT. The accumulator's operations as arithmetic on numbers. -/

namespace Sys2Proof.Machine

theorem or_shift_toNat {a b k : Nat} (h : b < 2 ^ k) : a <<< k ||| b = a * 2 ^ k + b := by
  rw [Nat.shiftLeft_eq, Nat.mul_comm, Nat.two_pow_add_eq_or_of_lt h]

theorem shiftInByte_toNat {acc : AccWord} (b : Byte) (h : acc.toNat < 2 ^ 4) :
    (shiftInByte acc b).toNat = acc.toNat * 256 + b.toNat := by
  have hb : b.toNat < 2 ^ 8 := b.isLt
  have e : acc.toNat <<< 8 % 2 ^ 12 = acc.toNat <<< 8 := by
    rw [Nat.shiftLeft_eq]; omega
  simp only [shiftInByte, BitVec.toNat_or, BitVec.toNat_shiftLeft, BitVec.toNat_setWidth]
  rw [e, Nat.mod_eq_of_lt (by omega)]
  exact or_shift_toNat hb

theorem shiftInSym_toNat {acc : AccWord} (v : Sym) (h : acc.toNat < 2 ^ 6) :
    (shiftInSym acc v).toNat = acc.toNat * 64 + v.toNat := by
  have hv : v.toNat < 2 ^ 6 := v.isLt
  have e : acc.toNat <<< 6 % 2 ^ 12 = acc.toNat <<< 6 := by
    rw [Nat.shiftLeft_eq]; omega
  simp only [shiftInSym, BitVec.toNat_or, BitVec.toNat_shiftLeft, BitVec.toNat_setWidth]
  rw [e, Nat.mod_eq_of_lt (by omega)]
  exact or_shift_toNat hv

theorem topSym_toNat (acc : AccWord) (n : NbWord) :
    (topSym acc n).toNat = acc.toNat / 2 ^ (n.toNat - 6) % 64 := by
  simp [topSym, Nat.shiftRight_eq_div_pow]

theorem topByte_toNat (acc : AccWord) (n : NbWord) :
    (topByte acc n).toNat = acc.toNat / 2 ^ (n.toNat - 8) % 256 := by
  simp [topByte, Nat.shiftRight_eq_div_pow]

theorem flushSym_toNat (acc : AccWord) (n : NbWord) :
    (flushSym acc n).toNat = acc.toNat * 2 ^ (6 - n.toNat) % 64 := by
  simp only [flushSym, BitVec.toNat_setWidth, BitVec.toNat_shiftLeft, Nat.shiftLeft_eq]
  exact Nat.mod_mod_of_dvd _ (by decide)

theorem maskValid_toNat (acc : AccWord) (n : NbWord) :
    (maskValid acc n).toNat = acc.toNat % 2 ^ n.toNat := by
  have hn : n.toNat < 2 ^ 4 := n.isLt
  by_cases h : n.toNat ≤ 12
  · have e : (2 ^ n.toNat - 1) % 2 ^ 12 = 2 ^ n.toNat - 1 := by
      have : 2 ^ n.toNat ≤ 2 ^ 12 := Nat.pow_le_pow_right (by decide) h
      have := Nat.two_pow_pos n.toNat
      omega
    simp only [maskValid, BitVec.toNat_and, BitVec.toNat_ofNat, e, Nat.and_two_pow_sub_one_eq_mod]
  · have ha : acc.toNat < 2 ^ 12 := acc.isLt
    have e : (2 ^ n.toNat - 1) % 2 ^ 12 = 2 ^ 12 - 1 := by
      have : n.toNat = 13 ∨ n.toNat = 14 ∨ n.toNat = 15 := by omega
      rcases this with h | h | h <;> rw [h] <;> rfl
    have hp : 2 ^ 12 ≤ 2 ^ n.toNat := Nat.pow_le_pow_right (by decide) (by omega)
    simp only [maskValid, BitVec.toNat_and, BitVec.toNat_ofNat, e, Nat.and_two_pow_sub_one_eq_mod]
    rw [Nat.mod_eq_of_lt ha, Nat.mod_eq_of_lt (Nat.lt_of_lt_of_le ha hp)]

/-- A length as `omega` sees its bound. -/
theorem lenWord_lt (x : LenWord) : x.toNat < 4294967296 := x.isLt

/-- Counting up below another length does not wrap (10_state.md R30, 41_size_functions.md R134 (g)). -/
theorem succ_toNat {x y : LenWord} (h : x.toNat < y.toNat) : (x + 1).toNat = x.toNat + 1 := by
  have := lenWord_lt y
  have e : (1 : LenWord).toNat = 1 := rfl
  rw [BitVec.toNat_add, e]
  exact Nat.mod_eq_of_lt (by change _ < 4294967296; omega)

/-- A length is negative when its top bit is set (43_decode.md R161). -/
theorem lenNegative_iff (len : LenWord) :
    lenNegative len = true ↔ 2 ^ (Config.lenW - 1) ≤ len.toNat := by
  simp [lenNegative, BitVec.msb_eq_decide]

end Sys2Proof.Machine
end

