-- ==== Sys2Proof/Laws/State.lean ====
section
/-! SUPPORT. One lemma per field per named update of State. -/

namespace Sys2Proof.Machine

@[simp] theorem State.accept_op (s : State) (o : Op) : (s.accept o).op = o := rfl
@[simp] theorem State.accept_len (s : State) (o : Op) : (s.accept o).len = s.len := rfl
@[simp] theorem State.accept_cap (s : State) (o : Op) : (s.accept o).cap = s.cap := rfl
@[simp] theorem State.accept_ctl (s : State) (o : Op) : (s.accept o).ctl = s.ctl := rfl
@[simp] theorem State.accept_err (s : State) (o : Op) : (s.accept o).err = .ok := rfl
@[simp] theorem State.accept_count (s : State) (o : Op) : (s.accept o).count = s.count := rfl
@[simp] theorem State.accept_result (s : State) (o : Op) : (s.accept o).result = s.result := rfl
@[simp] theorem State.accept_acc (s : State) (o : Op) : (s.accept o).acc = s.acc := rfl
@[simp] theorem State.accept_nbits (s : State) (o : Op) : (s.accept o).nbits = s.nbits := rfl
@[simp] theorem State.accept_ipos (s : State) (o : Op) : (s.accept o).ipos = s.ipos := rfl
@[simp] theorem State.accept_opos (s : State) (o : Op) : (s.accept o).opos = s.opos := rfl
@[simp] theorem State.accept_tlen (s : State) (o : Op) : (s.accept o).tlen = s.tlen := rfl
@[simp] theorem State.accept_inMem (s : State) (o : Op) : (s.accept o).inMem = s.inMem := rfl
@[simp] theorem State.accept_outMem (s : State) (o : Op) : (s.accept o).outMem = s.outMem := rfl
@[simp] theorem State.accept_charOut (s : State) (o : Op) : (s.accept o).charOut = s.charOut := rfl
@[simp] theorem State.accept_rdata (s : State) (o : Op) : (s.accept o).rdata = s.rdata := rfl
@[simp] theorem State.accept_outBefore (s : State) (o : Op) : (s.accept o).outBefore = s.outBefore := rfl
@[simp] theorem State.accept_freeCount (s : State) (o : Op) : (s.accept o).freeCount = s.freeCount := rfl
@[simp] theorem State.accept_inputs (s : State) (o : Op) : (s.accept o).inputs = s.inputs := rfl

@[simp] theorem State.raise_op (s : State) (e : ErrKind) : (s.raise e).op = s.op := rfl
@[simp] theorem State.raise_len (s : State) (e : ErrKind) : (s.raise e).len = s.len := rfl
@[simp] theorem State.raise_cap (s : State) (e : ErrKind) : (s.raise e).cap = s.cap := rfl
@[simp] theorem State.raise_ctl (s : State) (e : ErrKind) : (s.raise e).ctl = .failed := rfl
@[simp] theorem State.raise_err (s : State) (e : ErrKind) : (s.raise e).err = e := rfl
@[simp] theorem State.raise_count (s : State) (e : ErrKind) : (s.raise e).count = s.count := rfl
@[simp] theorem State.raise_result (s : State) (e : ErrKind) : (s.raise e).result = s.result := rfl
@[simp] theorem State.raise_acc (s : State) (e : ErrKind) : (s.raise e).acc = s.acc := rfl
@[simp] theorem State.raise_nbits (s : State) (e : ErrKind) : (s.raise e).nbits = s.nbits := rfl
@[simp] theorem State.raise_ipos (s : State) (e : ErrKind) : (s.raise e).ipos = s.ipos := rfl
@[simp] theorem State.raise_opos (s : State) (e : ErrKind) : (s.raise e).opos = s.opos := rfl
@[simp] theorem State.raise_tlen (s : State) (e : ErrKind) : (s.raise e).tlen = s.tlen := rfl
@[simp] theorem State.raise_inMem (s : State) (e : ErrKind) : (s.raise e).inMem = s.inMem := rfl
@[simp] theorem State.raise_outMem (s : State) (e : ErrKind) : (s.raise e).outMem = s.outMem := rfl
@[simp] theorem State.raise_charOut (s : State) (e : ErrKind) : (s.raise e).charOut = s.charOut := rfl
@[simp] theorem State.raise_rdata (s : State) (e : ErrKind) : (s.raise e).rdata = s.rdata := rfl
@[simp] theorem State.raise_outBefore (s : State) (e : ErrKind) : (s.raise e).outBefore = s.outBefore := rfl
@[simp] theorem State.raise_freeCount (s : State) (e : ErrKind) : (s.raise e).freeCount = s.freeCount := rfl
@[simp] theorem State.raise_inputs (s : State) (e : ErrKind) : (s.raise e).inputs = s.inputs := rfl

@[simp] theorem State.startRun_op (s : State) : s.startRun.op = s.op := rfl
@[simp] theorem State.startRun_len (s : State) : s.startRun.len = s.len := rfl
@[simp] theorem State.startRun_cap (s : State) : s.startRun.cap = s.cap := rfl
@[simp] theorem State.startRun_ctl (s : State) : s.startRun.ctl = .accumulating := rfl
@[simp] theorem State.startRun_err (s : State) : s.startRun.err = s.err := rfl
@[simp] theorem State.startRun_count (s : State) : s.startRun.count = s.count := rfl
@[simp] theorem State.startRun_result (s : State) : s.startRun.result = s.result := rfl
@[simp] theorem State.startRun_acc (s : State) : s.startRun.acc = 0 := rfl
@[simp] theorem State.startRun_nbits (s : State) : s.startRun.nbits = 0 := rfl
@[simp] theorem State.startRun_ipos (s : State) : s.startRun.ipos = 0 := rfl
@[simp] theorem State.startRun_opos (s : State) : s.startRun.opos = 0 := rfl
@[simp] theorem State.startRun_tlen (s : State) : s.startRun.tlen = s.tlen := rfl
@[simp] theorem State.startRun_inMem (s : State) : s.startRun.inMem = s.inMem := rfl
@[simp] theorem State.startRun_outMem (s : State) : s.startRun.outMem = s.outMem := rfl
@[simp] theorem State.startRun_charOut (s : State) : s.startRun.charOut = s.charOut := rfl
@[simp] theorem State.startRun_rdata (s : State) : s.startRun.rdata = s.rdata := rfl
@[simp] theorem State.startRun_outBefore (s : State) : s.startRun.outBefore = s.outMem := rfl
@[simp] theorem State.startRun_freeCount (s : State) : s.startRun.freeCount = s.freeCount := rfl
@[simp] theorem State.startRun_inputs (s : State) : s.startRun.inputs = s.inputs := rfl

@[simp] theorem State.lookupChar_op (s : State) (v : Sym) : (s.lookupChar v).op = s.op := rfl
@[simp] theorem State.lookupChar_len (s : State) (v : Sym) : (s.lookupChar v).len = s.len := rfl
@[simp] theorem State.lookupChar_cap (s : State) (v : Sym) : (s.lookupChar v).cap = s.cap := rfl
@[simp] theorem State.lookupChar_ctl (s : State) (v : Sym) : (s.lookupChar v).ctl = s.ctl := rfl
@[simp] theorem State.lookupChar_err (s : State) (v : Sym) : (s.lookupChar v).err = s.err := rfl
@[simp] theorem State.lookupChar_count (s : State) (v : Sym) : (s.lookupChar v).count = s.count := rfl
@[simp] theorem State.lookupChar_result (s : State) (v : Sym) : (s.lookupChar v).result = s.result := rfl
@[simp] theorem State.lookupChar_acc (s : State) (v : Sym) : (s.lookupChar v).acc = s.acc := rfl
@[simp] theorem State.lookupChar_nbits (s : State) (v : Sym) : (s.lookupChar v).nbits = s.nbits := rfl
@[simp] theorem State.lookupChar_ipos (s : State) (v : Sym) : (s.lookupChar v).ipos = s.ipos := rfl
@[simp] theorem State.lookupChar_opos (s : State) (v : Sym) : (s.lookupChar v).opos = s.opos := rfl
@[simp] theorem State.lookupChar_tlen (s : State) (v : Sym) : (s.lookupChar v).tlen = s.tlen := rfl
@[simp] theorem State.lookupChar_inMem (s : State) (v : Sym) : (s.lookupChar v).inMem = s.inMem := rfl
@[simp] theorem State.lookupChar_outMem (s : State) (v : Sym) : (s.lookupChar v).outMem = s.outMem := rfl
@[simp] theorem State.lookupChar_charOut (s : State) (v : Sym) : (s.lookupChar v).charOut = charOf v := rfl
@[simp] theorem State.lookupChar_rdata (s : State) (v : Sym) : (s.lookupChar v).rdata = s.rdata := rfl
@[simp] theorem State.lookupChar_outBefore (s : State) (v : Sym) : (s.lookupChar v).outBefore = s.outBefore := rfl
@[simp] theorem State.lookupChar_freeCount (s : State) (v : Sym) : (s.lookupChar v).freeCount = s.freeCount := rfl
@[simp] theorem State.lookupChar_inputs (s : State) (v : Sym) : (s.lookupChar v).inputs = s.inputs := rfl

@[simp] theorem State.finishSize_op (s : State) (r : Nat) : (s.finishSize r).op = s.op := rfl
@[simp] theorem State.finishSize_len (s : State) (r : Nat) : (s.finishSize r).len = s.len := rfl
@[simp] theorem State.finishSize_cap (s : State) (r : Nat) : (s.finishSize r).cap = s.cap := rfl
@[simp] theorem State.finishSize_ctl (s : State) (r : Nat) : (s.finishSize r).ctl = .done := rfl
@[simp] theorem State.finishSize_err (s : State) (r : Nat) : (s.finishSize r).err = s.err := rfl
@[simp] theorem State.finishSize_count (s : State) (r : Nat) : (s.finishSize r).count = s.count := rfl
@[simp] theorem State.finishSize_result (s : State) (r : Nat) : (s.finishSize r).result = BitVec.ofNat _ r := rfl
@[simp] theorem State.finishSize_acc (s : State) (r : Nat) : (s.finishSize r).acc = s.acc := rfl
@[simp] theorem State.finishSize_nbits (s : State) (r : Nat) : (s.finishSize r).nbits = s.nbits := rfl
@[simp] theorem State.finishSize_ipos (s : State) (r : Nat) : (s.finishSize r).ipos = s.ipos := rfl
@[simp] theorem State.finishSize_opos (s : State) (r : Nat) : (s.finishSize r).opos = s.opos := rfl
@[simp] theorem State.finishSize_tlen (s : State) (r : Nat) : (s.finishSize r).tlen = s.tlen := rfl
@[simp] theorem State.finishSize_inMem (s : State) (r : Nat) : (s.finishSize r).inMem = s.inMem := rfl
@[simp] theorem State.finishSize_outMem (s : State) (r : Nat) : (s.finishSize r).outMem = s.outMem := rfl
@[simp] theorem State.finishSize_charOut (s : State) (r : Nat) : (s.finishSize r).charOut = s.charOut := rfl
@[simp] theorem State.finishSize_rdata (s : State) (r : Nat) : (s.finishSize r).rdata = s.rdata := rfl
@[simp] theorem State.finishSize_outBefore (s : State) (r : Nat) : (s.finishSize r).outBefore = s.outBefore := rfl
@[simp] theorem State.finishSize_freeCount (s : State) (r : Nat) : (s.finishSize r).freeCount = s.freeCount := rfl
@[simp] theorem State.finishSize_inputs (s : State) (r : Nat) : (s.finishSize r).inputs = s.inputs := rfl

@[simp] theorem State.rst_op (s : State) : s.rst.op = .minlen := rfl
@[simp] theorem State.rst_len (s : State) : s.rst.len = 0 := rfl
@[simp] theorem State.rst_cap (s : State) : s.rst.cap = 0 := rfl
@[simp] theorem State.rst_ctl (s : State) : s.rst.ctl = .idle := rfl
@[simp] theorem State.rst_err (s : State) : s.rst.err = .ok := rfl
@[simp] theorem State.rst_count (s : State) : s.rst.count = 0 := rfl
@[simp] theorem State.rst_result (s : State) : s.rst.result = 0 := rfl
@[simp] theorem State.rst_acc (s : State) : s.rst.acc = 0 := rfl
@[simp] theorem State.rst_nbits (s : State) : s.rst.nbits = 0 := rfl
@[simp] theorem State.rst_ipos (s : State) : s.rst.ipos = 0 := rfl
@[simp] theorem State.rst_opos (s : State) : s.rst.opos = 0 := rfl
@[simp] theorem State.rst_tlen (s : State) : s.rst.tlen = 0 := rfl
@[simp] theorem State.rst_inMem (s : State) : s.rst.inMem = s.inMem := rfl
@[simp] theorem State.rst_outMem (s : State) : s.rst.outMem = s.outMem := rfl
@[simp] theorem State.rst_charOut (s : State) : s.rst.charOut = 0 := rfl
@[simp] theorem State.rst_rdata (s : State) : s.rst.rdata = s.rdata := rfl
@[simp] theorem State.rst_outBefore (s : State) : s.rst.outBefore = s.outBefore := rfl
@[simp] theorem State.rst_freeCount (s : State) : s.rst.freeCount = s.freeCount := rfl
@[simp] theorem State.rst_inputs (s : State) : s.rst.inputs = s.inputs := rfl

end Sys2Proof.Machine
end

