-- ==== Sys2Proof/Laws/Ops.lean ====
section
/-! SUPPORT. What each shared operation can do, said once: if it answers a next state, which one. -/

namespace Sys2Proof.Machine

theorem State.putOut_eq_some {s t : State} {u : Byte} :
    s.putOut u = some t ↔
      ∃ m, s.outMem.write s.opos.toNat u = some m ∧ t = { s with outMem := m } := by
  unfold State.putOut
  cases h : s.outMem.write s.opos.toNat u <;> simp [eq_comm]

/-- A store inside the provided units is made. -/
theorem State.putOut_of_lt {s : State} (u : Byte) (h : s.opos.toNat < s.outMem.size) :
    s.putOut u =
      some { s with outMem := { s.outMem with cells := putCell s.outMem.cells s.opos.toNat u } } := by
  simp [State.putOut, Memory.write, h]

theorem State.onCommand_busy {s : State} {op : Op} {body : State → Result} (h : s.busy = true) :
    s.onCommand op body = .next s := by simp [State.onCommand, h]

theorem State.onCommand_notBusy {s : State} {op : Op} {body : State → Result}
    (h : s.busy = false) : s.onCommand op body = body (s.accept op) := by
  simp [State.onCommand, h]

/-- All that ENC.START does on a launch: fail on the capacity, or start the run. -/
theorem encStartBody_eq_next {s t : State} :
    encStartBody s = .next t ↔
      s.len.toNat ≤ s.inMem.size ∧ s.cap.toNat ≤ s.outMem.size ∧
      (s.cap.toNat < minEncodedLength s.len.toNat ∧
          t = ({ s with tlen := s.len } : State).raise .insufficientSpace ∨
        minEncodedLength s.len.toNat ≤ s.cap.toNat ∧
          t = ({ s with tlen := s.len } : State).startRun) := by
  unfold encStartBody
  by_cases h1 : s.inMem.size < s.len.toNat
  · simp only [h1, if_true, reduceCtorEq, false_iff]; omega
  · by_cases h2 : s.outMem.size < s.cap.toNat
    · simp only [h1, h2, if_false, if_true, reduceCtorEq, false_iff]; omega
    · by_cases h3 : s.cap.toNat < minEncodedLength s.len.toNat
      · simp only [h1, h2, h3, if_false, if_true, Host.Outcome.next.injEq, true_and]
        constructor
        · rintro rfl; exact ⟨by omega, by omega, .inl rfl⟩
        · rintro ⟨-, -, h | h⟩
          · exact h.symm
          · omega
      · simp only [h1, h2, h3, if_false, Host.Outcome.next.injEq, false_and, false_or]
        constructor
        · rintro rfl; exact ⟨by omega, by omega, by omega, rfl⟩
        · rintro ⟨-, -, -, h⟩; exact h.symm

/-- The length scan answers the first 0x00 at or after its start. -/
theorem scanTerm_eq_some {m : Memory} {fuel z r : Nat} (h : scanTerm m fuel z = some r) :
    z ≤ r ∧ m.read r = some Config.term ∧ ∀ k, z ≤ k → k < r → m.read k ≠ some Config.term := by
  induction fuel generalizing z with
  | zero => simp [scanTerm] at h
  | succ fuel ih =>
    simp only [scanTerm] at h
    split at h
    · cases h
    · rename_i u hu
      split at h
      · rename_i hterm
        cases h
        subst hterm
        exact ⟨Nat.le_refl _, hu, fun k h1 h2 => by omega⟩
      · rename_i hterm
        obtain ⟨h1, h2, h3⟩ := ih h
        refine ⟨by omega, h2, fun k hk hr => ?_⟩
        by_cases e : k = z
        · subst e; rw [hu]; simpa using hterm
        · exact h3 k (by omega) hr

/-- The scan finds a 0x00 that the provided units hold. -/
theorem scanTerm_isSome {m : Memory} {fuel z r : Nat} (hz : z ≤ r) (hf : r < z + fuel)
    (hr : m.read r = some Config.term) : ∃ k, scanTerm m fuel z = some k := by
  induction fuel generalizing z with
  | zero => omega
  | succ fuel ih =>
    have hsz := (Memory.read_eq_some.mp hr).1
    have hread : m.read z = some (lookupCell m.cells z) :=
      Memory.read_eq_some.mpr ⟨by omega, rfl⟩
    simp only [scanTerm, hread]
    split
    · exact ⟨z, rfl⟩
    · rename_i ht
      by_cases e : z = r
      · subst e; rw [hread] at hr; exact absurd (Option.some.inj hr) ht
      · exact ih (by omega) (by omega)

/-- `firstTerm` is the least index that holds 0x00. -/
theorem Memory.firstTerm_eq_some {m : Memory} {r : Nat} :
    m.firstTerm = some r ↔
      m.read r = some Config.term ∧ ∀ k, k < r → m.read k ≠ some Config.term := by
  constructor
  · intro h
    obtain ⟨-, h2, h3⟩ := scanTerm_eq_some h
    exact ⟨h2, fun k hk => h3 k (Nat.zero_le k) hk⟩
  · rintro ⟨hr, hlt⟩
    obtain ⟨k, hk⟩ := scanTerm_isSome (Nat.zero_le r)
      (by simpa using (Memory.read_eq_some.mp hr).1) hr
    obtain ⟨-, h2, h3⟩ := scanTerm_eq_some hk
    have : k = r := by
      rcases Nat.lt_trichotomy k r with h | h | h
      · exact absurd h2 (hlt k h)
      · exact h
      · exact absurd hr (h3 r (Nat.zero_le r) h)
    exact this ▸ hk

/-- All that the length of a DECODE can be (43_decode.md R161). -/
theorem effectiveLength_eq_ok {s : State} {l : LenWord} :
    effectiveLength s = .ok l ↔
      (lenNegative s.len = true ∧ ∃ z, s.inMem.firstTerm = some z ∧ l = BitVec.ofNat _ z) ∨
      (lenNegative s.len = false ∧ s.len.toNat ≤ s.inMem.size ∧ l = s.len) := by
  unfold effectiveLength
  cases hn : lenNegative s.len
  · by_cases h : s.inMem.size < s.len.toNat
    · simp [h]
    · simp [h, Nat.le_of_not_lt h, eq_comm]
  · cases hz : s.inMem.firstTerm <;> simp [eq_comm]

/-- All that DEC.START does on a launch: fail on the capacity, or start the run. -/
theorem decStartBody_eq_next {s t : State} :
    decStartBody s = .next t ↔
      ∃ l, effectiveLength s = .ok l ∧ s.cap.toNat ≤ s.outMem.size ∧
        (s.cap.toNat < maxDecodedLength l.toNat ∧
            t = ({ s with tlen := l } : State).raise .insufficientSpace ∨
          maxDecodedLength l.toNat ≤ s.cap.toNat ∧
            t = ({ s with tlen := l } : State).startRun) := by
  unfold decStartBody
  cases hl : effectiveLength s with
  | error r => simp
  | ok l =>
    by_cases h2 : s.outMem.size < s.cap.toNat
    · simp [h2]
    · by_cases h3 : s.cap.toNat < maxDecodedLength l.toNat
      · simp [h2, h3, Nat.le_of_not_lt h2, Nat.not_le_of_lt h3, eq_comm]
      · simp [h2, h3, Nat.le_of_not_lt h2, Nat.le_of_not_lt h3, eq_comm]

end Sys2Proof.Machine
end

