-- ==== Sys2Proof/Laws/Exec.lean ====
section
/-! SUPPORT. One inversion lemma per micro-step: when it answers a next state, and which one. -/

namespace Sys2Proof.Machine

theorem execEncStart_eq_next {st : CtlState} {s t : State} :
    execEncStart st s = .next t ↔
      s.ctl = st ∧ st.busy = false ∧ encStartBody (s.accept .encode) = .next t := by
  unfold execEncStart
  split <;> simp_all

theorem execDecStart_eq_next {st : CtlState} {s t : State} :
    execDecStart st s = .next t ↔
      s.ctl = st ∧ st.busy = false ∧ decStartBody (s.accept .decode) = .next t := by
  unfold execDecStart
  split <;> simp_all

theorem execEncByte_eq_next {s t : State} :
    execEncByte s = .next t ↔
      (s.encAccumulating ∧ s.ipos.toNat < s.tlen.toNat ∧ s.nbits.toNat < 6) ∧ ∃ b, s.unitAtIpos = some b ∧
        t = { s with
          acc := shiftInByte s.acc b, nbits := s.nbits + 8, ipos := s.ipos + 1,
          ctl := .emitting } := by
  unfold execEncByte
  by_cases g : s.encAccumulating ∧ s.ipos.toNat < s.tlen.toNat ∧ s.nbits.toNat < 6
  · simp only [if_pos g, and_iff_right g]
    cases h : s.unitAtIpos <;> simp [eq_comm]
  · rw [if_neg g]
    exact ⟨fun h => by simp at h, fun h => absurd h.1 g⟩

theorem execEncEmit_eq_next {s t : State} :
    execEncEmit s = .next t ↔
      s.encEmitting ∧ ∃ m, s.outMem.write s.opos.toNat (charOf (topSym s.acc s.nbits)) = some m ∧
        t = { s with
          outMem := m, charOut := charOf (topSym s.acc s.nbits), opos := s.opos + 1,
          nbits := s.nbits - 6, acc := maskValid s.acc (s.nbits - 6),
          ctl := ctlByCount 6 (s.nbits - 6) } := by
  unfold execEncEmit
  by_cases g : s.encEmitting
  · simp only [if_pos g, and_iff_right g, State.putOut, State.lookupChar]
    cases h : s.outMem.write s.opos.toNat (charOf (topSym s.acc s.nbits)) <;> simp [eq_comm]
  · rw [if_neg g]
    exact ⟨fun h => by simp at h, fun h => absurd h.1 g⟩

theorem execEncFlush_eq_next {s t : State} :
    execEncFlush s = .next t ↔
      (s.encAccumulating ∧ s.ipos = s.tlen ∧ 0 < s.nbits.toNat ∧ s.nbits.toNat < 6) ∧
        ∃ m, s.outMem.write s.opos.toNat (charOf (flushSym s.acc s.nbits)) = some m ∧
        t = { s with
          outMem := m, charOut := charOf (flushSym s.acc s.nbits), opos := s.opos + 1, acc := 0,
          nbits := 0, ctl := .accumulating } := by
  unfold execEncFlush
  by_cases g : s.encAccumulating ∧ s.ipos = s.tlen ∧ 0 < s.nbits.toNat ∧ s.nbits.toNat < 6
  · simp only [if_pos g, and_iff_right g, State.putOut, State.lookupChar]
    cases h : s.outMem.write s.opos.toNat (charOf (flushSym s.acc s.nbits)) <;> simp [eq_comm]
  · rw [if_neg g]
    exact ⟨fun h => by simp at h, fun h => absurd h.1 g⟩

theorem execEncTerm_eq_next {s t : State} :
    execEncTerm s = .next t ↔
      (s.encAccumulating ∧ s.ipos = s.tlen ∧ s.nbits = 0) ∧
        ∃ m, s.outMem.write s.opos.toNat Config.term = some m ∧
        t = { s with outMem := m, count := s.opos, ctl := .done } := by
  unfold execEncTerm
  by_cases g : s.encAccumulating ∧ s.ipos = s.tlen ∧ s.nbits = 0
  · simp only [if_pos g, and_iff_right g, State.putOut]
    cases h : s.outMem.write s.opos.toNat Config.term <;> simp [eq_comm]
  · rw [if_neg g]
    exact ⟨fun h => by simp at h, fun h => absurd h.1 g⟩

theorem execDecWs_eq_next {w : Whitespace} {s t : State} :
    execDecWs w s = .next t ↔ s.atUnit w.code ∧ t = { s with ipos := s.ipos + 1 } := by
  unfold execDecWs
  by_cases g : s.atUnit w.code
  · simp only [if_pos g, and_iff_right g]
    simp [eq_comm]
  · rw [if_neg g]
    exact ⟨fun h => by simp at h, fun h => absurd h.1 g⟩

theorem execDecInv_eq_next {c : Byte} {s t : State} :
    execDecInv c s = .next t ↔
      (s.atUnit c ∧ isInvalidUnit c = true) ∧
        t = { s with ipos := s.ipos + 1, err := .invalidInput, ctl := .failed } := by
  unfold execDecInv State.raise
  by_cases g : s.atUnit c ∧ isInvalidUnit c = true
  · simp only [if_pos g, and_iff_right g]
    simp [eq_comm]
  · rw [if_neg g]
    exact ⟨fun h => by simp at h, fun h => absurd h.1 g⟩

theorem execDecSym_eq_next {v : Sym} {s t : State} :
    execDecSym v s = .next t ↔
      (s.atUnit (charOf v) ∧ s.nbits.toNat < 8) ∧
        t = { s with
          acc := shiftInSym s.acc v, nbits := s.nbits + 6, ipos := s.ipos + 1,
          ctl := ctlByCount 8 (s.nbits + 6) } := by
  unfold execDecSym
  by_cases g : s.atUnit (charOf v) ∧ s.nbits.toNat < 8
  · simp only [if_pos g, and_iff_right g]
    simp [eq_comm]
  · rw [if_neg g]
    exact ⟨fun h => by simp at h, fun h => absurd h.1 g⟩

theorem execDecEmit_eq_next {s t : State} :
    execDecEmit s = .next t ↔
      s.decEmitting ∧ ∃ m, s.outMem.write s.opos.toNat (topByte s.acc s.nbits) = some m ∧
        t = { s with
          outMem := m, opos := s.opos + 1, nbits := s.nbits - 8,
          acc := maskValid s.acc (s.nbits - 8),
          ctl := ctlByCount 8 (s.nbits - 8) } := by
  unfold execDecEmit
  by_cases g : s.decEmitting
  · simp only [if_pos g, and_iff_right g, State.putOut]
    cases h : s.outMem.write s.opos.toNat (topByte s.acc s.nbits) <;> simp [eq_comm]
  · rw [if_neg g]
    exact ⟨fun h => by simp at h, fun h => absurd h.1 g⟩

theorem execDecEnd_eq_next {s t : State} :
    execDecEnd s = .next t ↔
      (s.decAccumulating ∧ s.ipos = s.tlen) ∧ t = { s with count := s.opos, ctl := .done } := by
  unfold execDecEnd
  by_cases g : s.decAccumulating ∧ s.ipos = s.tlen
  · simp only [if_pos g, and_iff_right g]
    simp [eq_comm]
  · rw [if_neg g]
    exact ⟨fun h => by simp at h, fun h => absurd h.1 g⟩

end Sys2Proof.Machine
end

