-- ==== Sys2Proof/Laws/Safety.lean ====
section
/-! SUPPORT. How the units and the alphabet characters before the cursor grow by one unit. -/

namespace Sys2Proof.Machine

theorem Memory.firstUnits_succ {m : Memory} {i : Nat} {c : Byte} (h : m.read i = some c) :
    m.firstUnits (i + 1) = m.firstUnits i ++ [c] := by
  have hc : lookupCell m.cells i = c := by
    unfold Memory.read at h
    split at h <;> simp_all
  simp [Memory.firstUnits, List.range_succ, hc]

theorem State.symsTaken_zero {s : State} (h : s.ipos = 0) : s.symsTaken = 0 := by
  simp [State.symsTaken, Memory.firstUnits, h]

/-- A step that takes in the unit `c` and leaves IN. -/
theorem State.symsTaken_succ {s t : State} {c : Byte} (hm : t.inMem = s.inMem)
    (hi : t.ipos.toNat = s.ipos.toNat + 1) (hc : s.inMem.read s.ipos.toNat = some c) :
    t.symsTaken = s.symsTaken + if (valueOf c).isSome then 1 else 0 := by
  simp [State.symsTaken, hm, hi, Memory.firstUnits_succ hc, List.countP_cons]

end Sys2Proof.Machine
end

