-- ==== Sys2Proof/Tests/Slice0.lean ====
section
/-! SUPPORT. The model's own tests: words written out from the spec's tables, ill-formed terms refused,
single steps with results from 95_test_vectors.md, and, for each statement with hypotheses, a state and
operands that meet them. -/

namespace Sys2Proof.Tests

open Sys2Proof.Machine

/-- Whether a result is a next state with the property. -/
def nextIs (r : Result) (p : State → Bool) : Bool :=
  match r with
  | .next t => p t
  | .fault _ => false
  | .refused _ => false

/-- The next state, or the one given where there is none. -/
def nextOr (r : Result) (d : State) : State :=
  match r with
  | .next t => t
  | .fault _ => d
  | .refused _ => d

/-- The text or bytes in IN, eight units 0xEE in OUT, not busy. -/
def launch (units : List Byte) (len cap : LenWord) (inputs : List HostAction) : State :=
  { State.reset with
    len := len, cap := cap, inMem := Memory.ofUnits units 0,
    outMem := Memory.ofUnits (List.replicate 8 0xEE) 0, count := 77, inputs := inputs }

/-- A busy state in the middle of a run. -/
def running (units : List Byte) (op : Op) (ctl : CtlState) (acc : AccWord) (nbits : NbWord)
    (ipos opos : LenWord) : State :=
  { launch units (BitVec.ofNat _ units.length) 8 [] with
    op := op, ctl := ctl, acc := acc, nbits := nbits, ipos := ipos, opos := opos,
    tlen := BitVec.ofNat _ units.length }

/-! ## Words, bit by bit -/

theorem test_decode_cmd :
    decode (.cmd 0b00) = .ok .minlen ∧ decode (.cmd 0b01) = .ok .maxlen ∧
    decode (.cmd 0b10) = .ok .encode ∧ decode (.cmd 0b11) = .ok .decode := by decide

/-- 30_encoding.md R94, R95: `A`, `-`, `_`, tab, newline, carriage return, space, `=`, 0x00. -/
theorem test_decode_dchar :
    decode (.dchar 0b01000001) = .ok (.decSym 0) ∧ decode (.dchar 0b00101101) = .ok (.decSym 62) ∧
    decode (.dchar 0b01011111) = .ok (.decSym 63) ∧ decode (.dchar 0b00001001) = .ok (.decWs .tab) ∧
    decode (.dchar 0b00001010) = .ok (.decWs .newline) ∧
    decode (.dchar 0b00001101) = .ok (.decWs .carriageReturn) ∧
    decode (.dchar 0b00100000) = .ok (.decWs .space) ∧
    decode (.dchar 0b00111101) = .ok (.decInv 0x3D) ∧
    decode (.dchar 0b00000000) = .ok (.decInv 0x00) := by decide

theorem test_decode_eval : decode (.eval 0b110000) = .ok (.encSym 48) := by decide

/-- 30_encoding.md R106: OP = 10. -/
theorem test_decode_step_encode :
    decode (.step 0b10000 ⟨false, false, none⟩) = .ok (.encStart .idle) ∧
    decode (.step 0b10001 ⟨true, true, none⟩) = .ok .encByte ∧
    decode (.step 0b10001 ⟨false, true, none⟩) = .ok .encFlush ∧
    decode (.step 0b10001 ⟨false, false, none⟩) = .ok .encTerm ∧
    decode (.step 0b10010 ⟨true, true, none⟩) = .ok .encEmit ∧
    decode (.step 0b10011 ⟨false, false, none⟩) = .ok (.encStart .done) := by decide

/-- 30_encoding.md R106: OP = 11. -/
theorem test_decode_step_decode :
    decode (.step 0b11100 ⟨false, false, none⟩) = .ok (.decStart .failed) ∧
    decode (.step 0b11001 ⟨true, true, some 0x20⟩) = .ok (.decWs .space) ∧
    decode (.step 0b11001 ⟨true, true, some 0x41⟩) = .ok (.decSym 0) ∧
    decode (.step 0b11001 ⟨true, true, some 0x0B⟩) = .ok (.decInv 0x0B) ∧
    decode (.step 0b11001 ⟨false, true, none⟩) = .ok .decEnd ∧
    decode (.step 0b11010 ⟨false, true, none⟩) = .ok .decEmit := by decide

/-- 30_encoding.md R110: STATE 5 to 7; R106: no STEP row for MINLEN, MAXLEN. -/
theorem test_decode_rejects :
    decode (.step 0b10101 ⟨false, false, none⟩) = .error .reservedState ∧
    decode (.step 0b11111 ⟨false, false, none⟩) = .error .reservedState ∧
    decode (.step 0b01001 ⟨false, false, none⟩) = .error .noStepRow ∧
    decode (.step 0b11001 ⟨true, false, none⟩) = .error .noUnit := by decide

theorem test_encode_words :
    encode .encode = .cmd 0b10 ∧ encode (.decSym 48) = .dchar 0x77 ∧
    encode (.decWs .newline) = .dchar 0x0A ∧ encode (.encSym 63) = .eval 0b111111 ∧
    encode .decEmit = .step 0b11010 ⟨false, true, none⟩ := by decide

/-- Rows of opcode_table.json in whole bytes (log entry 14). -/
theorem test_table_words :
    decodeTableWord 8 0b10 = some .encode ∧ decodeTableWord 8 0b10011 = some (.encStart .done) ∧
    decodeTableWord 8 0b10001 = some .encByte ∧ decodeTableWord 8 0b11010 = some .decEmit ∧
    decodeTableWord 8 0b110000 = some (.encSym 48) ∧ decodeTableWord 8 0x77 = some (.decSym 48) ∧
    decodeTableWord 8 0xFF = some (.decInv 0xFF) ∧ decodeTableWord 5 0b10101 = none := by decide

/-- The same words, run as the first instruction after reset. -/
theorem test_fetch_words :
    nextIs (step (State.reset.withFetchWord 8 0b10010)) (fun t => t.outMem.read 0 == some 0x41) = true ∧
    nextIs (step (State.reset.withFetchWord 8 0b110000)) (fun t => t.outMem.read 0 == some 0x77) = true ∧
    nextIs (step (State.reset.withFetchWord 8 0x77)) (fun t => t.acc == 48 && t.nbits == 6) = true ∧
    nextIs (step (State.reset.withFetchWord 8 0xFF)) (fun t => t.err == .invalidInput) = true := by
  decide

/-! ## Ill-formed terms -/

theorem test_encStart_busy_ill_formed : Instr.wellFormed (.encStart .emitting) = false := by decide
theorem test_decStart_busy_ill_formed : Instr.wellFormed (.decStart .accumulating) = false := by decide
theorem test_decInv_of_symbol_ill_formed : Instr.wellFormed (.decInv 0x41) = false := by decide
theorem test_decInv_of_space_ill_formed : Instr.wellFormed (.decInv 0x20) = false := by decide

/-! ## Single steps (95_test_vectors.md) -/

/-- V24. -/
theorem test_minlen_wide :
    nextIs (exec .minlen (launch [] 0xFFFFFFFF 0 [])) (fun t =>
      t.result.toNat == 5726623061 && t.ctl == .done && t.count == 77) = true := by decide

/-- V27. -/
theorem test_maxlen_wide :
    nextIs (exec .maxlen (launch [] 0xFFFFFFFF 0 [])) (fun t =>
      t.result.toNat == 3221225471 && t.op == .maxlen) = true := by decide

/-- V50: one unit short. -/
theorem test_encode_short :
    nextIs (exec .encode (launch [0x00, 0x10, 0x83, 0xFF] 4 6 [])) (fun t =>
      t.ctl == .failed && t.err == .insufficientSpace && t.count == 77 &&
        t.outMem.read 0 == some 0xEE) = true := by decide

/-- V42, step 0. -/
theorem test_encStart_ok :
    nextIs (exec (.encStart .idle) (launch [0x00, 0x10, 0x83, 0xFF] 4 7 [])) (fun t =>
      t.ctl == .accumulating && t.tlen == 4 && t.op == .encode) = true := by decide

/-- 42_encode.md R143, example. -/
theorem test_encByte :
    nextIs (exec .encByte (running [0x00, 0x10, 0x83, 0xFF] .encode .accumulating 0b11 2 2 2)) (fun t =>
      t.acc == 0x383 && t.nbits == 10 && t.ipos == 3 && t.ctl == .emitting) = true := by decide

/-- 42_encode.md R144, example. -/
theorem test_encEmit :
    nextIs (exec .encEmit (running [0x00, 0x10, 0x83, 0xFF] .encode .emitting 0x383 10 3 2)) (fun t =>
      t.outMem.read 2 == some 0x34 && t.nbits == 4 && t.acc == 3 && t.ctl == .accumulating) = true := by
  decide

/-- Section 2.1, step 6: a second ENC.EMIT follows. -/
theorem test_encEmit_again :
    nextIs (exec .encEmit (running [0x00, 0x10, 0x83, 0xFF] .encode .emitting 0x083 12 3 2)) (fun t =>
      t.outMem.read 2 == some 0x43 && t.nbits == 6 && t.ctl == .emitting) = true := by decide

/-- 42_encode.md R145, example. -/
theorem test_encFlush :
    nextIs (exec .encFlush (running [0x00, 0x10, 0x83, 0xFF] .encode .accumulating 0b11 2 4 5)) (fun t =>
      t.outMem.read 5 == some 0x77 && t.opos == 6 && t.nbits == 0) = true := by decide

/-- 42_encode.md R146, example. -/
theorem test_encTerm :
    nextIs (exec .encTerm (running [0x00, 0x10, 0x83, 0xFF] .encode .accumulating 0 0 4 6)) (fun t =>
      t.outMem.read 6 == some 0x00 && t.count == 6 && t.opos == 6 && t.ctl == .done) = true := by decide

/-- 40_alphabet.md R120, example. -/
theorem test_encSym :
    nextIs (exec (.encSym 48) State.reset) (fun t => t.charOut == 0x77) = true := by decide

/-- V91: the bound counts whitespace. -/
theorem test_decode_short :
    nextIs (exec .decode (launch [0x20, 0x41, 0x20, 0x42, 0x0A, 0x43, 0x20] 7 4 [])) (fun t =>
      t.ctl == .failed && t.err == .insufficientSpace) = true := by decide

/-- V79a: the length up to the first 0x00. -/
theorem test_decStart_infers :
    nextIs (exec (.decStart .idle) (launch [0x41, 0x42, 0x00, 0x43, 0x44] 0xFFFFFFFF 1 [])) (fun t =>
      t.tlen == 2 && t.ctl == .accumulating) = true := by decide

/-- 43_decode.md R163, example. -/
theorem test_decWs :
    nextIs (exec (.decWs .newline) (running [0x41, 0x0A] .decode .accumulating 0 6 1 0)) (fun t =>
      t.ipos == 2 && t.nbits == 6 && t.ctl == .accumulating) = true := by decide

/-- 43_decode.md R164, example. -/
theorem test_decInv :
    nextIs (exec (.decInv 0x3D) (running [0x41, 0x3D, 0x42] .decode .accumulating 0 6 1 0)) (fun t =>
      t.err == .invalidInput && t.ctl == .failed && t.count == 77) = true := by decide

/-- 43_decode.md R165, example. -/
theorem test_decSym :
    nextIs (exec (.decSym 1) (running [0x41, 0x42] .decode .accumulating 0 6 1 0)) (fun t =>
      t.acc == 0x001 && t.nbits == 12 && t.ctl == .emitting) = true := by decide

/-- 43_decode.md R166, example. -/
theorem test_decEmit :
    nextIs (exec .decEmit (running [0x41, 0x42] .decode .emitting 0x001 12 2 0)) (fun t =>
      t.outMem.read 0 == some 0x00 && t.nbits == 4 && t.acc == 1 && t.ctl == .accumulating) = true := by
  decide

/-- 43_decode.md R167, example. -/
theorem test_decEnd :
    nextIs (exec .decEnd (running [0x41, 0x42, 0x43] .decode .accumulating 0b10 2 3 2)) (fun t =>
      t.count == 2 && t.ctl == .done && t.err == .ok) = true := by decide

/-- V102: bits above bit 1 of a CMD write are ignored. -/
theorem test_write_cmd_high_bits :
    nextIs (step (launch [0x00, 0x10, 0x83, 0xFF] 4 7 [.write 0 0xFE])) (fun t =>
      t.op == .encode && t.ctl == .accumulating) = true := by decide

/-- V110: STATUS after an InsufficientSpace. -/
theorem test_read_status :
    nextIs (step { launch [] 0 0 [.read 3] with ctl := .failed, err := .insufficientSpace }) (fun t =>
      t.rdata.toNat == 0x0C) = true := by decide

/-- V108: reset in the middle of a run keeps what was written. -/
theorem test_reset_midrun :
    nextIs (step { running [0x00] .encode .emitting 0 8 1 3 with inputs := [.reset] }) (fun t =>
      t.ctl == .idle && t.count == 0 && t.outMem.read 0 == some 0xEE) = true := by decide

/-- 93_implementation_defined.md U1, U3. -/
theorem test_illegal_launch :
    nextIs (exec .encode (launch [0x00] 2 7 [])) (fun _ => true) = false ∧
    nextIs (exec .encode (launch [0x00] 1 9 [])) (fun _ => true) = false := by decide

/-! ## Witnesses: states and operands that meet the hypotheses of the statements -/

theorem wit_DecodeOfEncode :
    Instr.wellFormed (.decInv 0x3D) = true ∧ Instr.wellFormed (.encStart .failed) = true := by decide

theorem wit_DecodedIsWellFormed : decode (.dchar 0xFF) = .ok (.decInv 0xFF) := by decide

theorem wit_UnitClasses_whitespace : ∀ c ∈ ([0x09, 0x0A, 0x0D, 0x20] : List Byte), r105Whitespace c := by
  decide

theorem wit_UnitClasses_alphabet :
    ∀ c ∈ ([0x2D, 0x30, 0x39, 0x41, 0x5A, 0x5F, 0x61, 0x7A] : List Byte), r105Alphabet c := by decide

theorem wit_UnitClasses_step :
    (⟨true, false, some 0x20⟩ : StepCond).more = true ∧
    (⟨true, false, some 0x20⟩ : StepCond).unit = some 0x20 := by decide

theorem wit_UnitClasses_invalid :
    ∀ c ∈ ([0x00, 0x08, 0x0B, 0x0C, 0x0E, 0x1F, 0x21, 0x2C, 0x2E, 0x2F, 0x3A, 0x40, 0x5B, 0x5E, 0x60,
      0x7B, 0xFF] : List Byte), r105Invalid c := by decide

theorem wit_CharOfTable :
    charOf 0 = 0x41 ∧ charOf 25 = 0x5A ∧ charOf 26 = 0x61 ∧ charOf 51 = 0x7A ∧ charOf 52 = 0x30 ∧
    charOf 61 = 0x39 ∧ charOf 62 = 0x2D ∧ charOf 63 = 0x5F := by decide

theorem wit_DecLutEntries : (0x41 : Byte) = charOf 0 ∧ ∀ v : Sym, (0x3D : Byte) ≠ charOf v := by decide

theorem wit_AlphabetBijection :
    valueOf 0x77 = some 48 ∧ valueOf 0x77 ≠ none ∧ charOf 48 = charOf 48 := by decide

theorem wit_ClassificationOrder :
    isWhitespace 0x0D = true ∧ (isWhitespace 0x41 = false ∧ valueOf 0x41 = some 0) ∧
    (isWhitespace 0x0C = false ∧ valueOf 0x0C = none) := by decide

theorem wit_SizeFunctionLaws : minEncodedLength 3 < minEncodedLength 4 ∧ (4 : Nat) ≤ 5 := by decide

theorem wit_SizeResultsFit : 2 ≤ 2 ∧ 3 < 2 ^ 2 := by decide

theorem wit_MinlenMaxlen :
    (launch [] 4 0 []).busy = false ∧
    (running [0x00] .encode .accumulating 0 0 0 0).busy = true := by decide

theorem wit_EncodeStarts :
    ((launch [0x00] 1 2 []).busy = false ∧ (launch [0x00] 1 2 []).encodeLegal ∧
      (launch [0x00] 1 2 []).cap.toNat < minEncodedLength 1) ∧
    ((launch [0x00] 1 3 []).busy = false ∧ (launch [0x00] 1 3 []).encodeLegal ∧
      minEncodedLength 1 ≤ (launch [0x00] 1 3 []).cap.toNat) := by decide

/-- ENC.BYTE with two valid bits at the last byte. -/
def atByte : State := running [0x00, 0x10, 0x83, 0xFF] .encode .accumulating 0b11 4 3 2

theorem wit_EncByteEffect :
    atByte.encAccumulating ∧ atByte.ipos.toNat < atByte.tlen.toNat ∧ atByte.nbits.toNat < 6 ∧
    atByte.inMem.read atByte.ipos.toNat = some 0xFF ∧
    atByte.acc.toNat < 2 ^ atByte.nbits.toNat ∧ atByte.nbits.toNat ∈ [0, 2, 4] := by decide

/-- ENC.EMIT with 12 and with 6 valid bits. -/
def atEmit (acc : AccWord) (nbits : NbWord) : State :=
  running [0x00, 0x10, 0x83, 0xFF] .encode .emitting acc nbits 3 2

theorem wit_EncEmitEffect :
    ((atEmit 0x083 12).encEmitting ∧ (atEmit 0x083 12).opos.toNat < (atEmit 0x083 12).outMem.size ∧
      (atEmit 0x083 12).outMem.wf = true ∧ (atEmit 0x083 12).accFits ∧ (atEmit 0x083 12).Inv) ∧
    ((atEmit 0x03 6).encEmitting ∧ (atEmit 0x03 6).outMem.wf = true ∧ (atEmit 0x03 6).accFits) := by decide

/-- ENC.FLUSH after one byte, and after two. -/
def atFlush1 : State := running [0xFF] .encode .accumulating 0b11 2 1 1
def atFlush2 : State := running [0x4D, 0x61] .encode .accumulating 0b0001 4 2 2

theorem wit_EncFlushEffect :
    atFlush1.encAccumulating ∧ atFlush1.ipos = atFlush1.tlen ∧ 0 < atFlush1.nbits.toNat ∧
    atFlush1.nbits.toNat < 6 ∧
    atFlush1.opos.toNat < atFlush1.outMem.size ∧ atFlush1.outMem.wf = true ∧
    atFlush1.acc.toNat < 2 ^ atFlush1.nbits.toNat ∧ atFlush1.Inv ∧ atFlush1.inputs = [] := by decide

theorem wit_EncFlushEffect_four_bits :
    atFlush2.encAccumulating ∧ atFlush2.ipos = atFlush2.tlen ∧ 0 < atFlush2.nbits.toNat ∧
    atFlush2.nbits.toNat < 6 ∧
    atFlush2.opos.toNat < atFlush2.outMem.size ∧ atFlush2.outMem.wf = true ∧ atFlush2.Inv := by decide

/-- ENC.TERM of an empty input. -/
def atTerm : State := running [] .encode .accumulating 0 0 0 0

theorem wit_EncTermEffect :
    atTerm.encAccumulating ∧ atTerm.ipos = atTerm.tlen ∧ atTerm.nbits = 0 ∧
    atTerm.opos.toNat < atTerm.outMem.size ∧ atTerm.outMem.wf = true := by decide

def encodeLaunch : State := launch [0x00, 0x10, 0x83, 0xFF] 4 7 [.write 0 2]

theorem wit_EncodeComputesReference :
    encodeLaunch.busy = false ∧ encodeLaunch.inMem.wf = true ∧ encodeLaunch.outMem.wf = true ∧
    encodeLaunch.encodeLegal ∧ minEncodedLength encodeLaunch.len.toNat ≤ encodeLaunch.cap.toNat ∧
    encodeLaunch.inputs = [.write 0 2] := by decide

/-- The largest explicit length, on a space of as many units 0x00. -/
def longText : State := { launch [] 0x7FFFFFFF 8 [] with inMem := { size := 2 ^ 31, cells := [] } }

theorem wit_DecodeStarts :
    (longText.busy = false ∧ longText.decodeLegal (2 ^ 31 - 1) ∧
      longText.cap.toNat < maxDecodedLength (2 ^ 31 - 1)) ∧
    ((launch [0x41, 0x42, 0x00] 0x80000000 1 []).busy = false ∧
      (launch [0x41, 0x42, 0x00] 0x80000000 1 []).decodeLegal 2 ∧ maxDecodedLength 2 ≤ 1) := by
  refine ⟨⟨by decide, ⟨by decide, fun _ => ⟨by decide, by decide⟩, fun h => ?_⟩, by decide⟩, by decide⟩
  exact absurd h (by decide)

/-- A decode pass at the unit `c`. -/
def atText (c : Byte) (acc : AccWord) (nbits : NbWord) : State :=
  running [0x41, c] .decode .accumulating acc nbits 1 0

theorem wit_DecWsEffect :
    (atText 0x20 0 6).decAccumulating ∧ (atText 0x20 0 6).ipos.toNat < (atText 0x20 0 6).tlen.toNat ∧
    (atText 0x20 0 6).inMem.read 1 = some Whitespace.space.code := by decide

theorem wit_DecInvEffect :
    (atText 0x3D 0 6).decAccumulating ∧ (atText 0x3D 0 6).ipos.toNat < (atText 0x3D 0 6).tlen.toNat ∧
    (atText 0x3D 0 6).inMem.read 1 = some 0x3D ∧ r105Invalid 0x3D := by decide

theorem wit_DecSymEffect :
    ((atText 0x42 0 6).decAccumulating ∧ (atText 0x42 0 6).inMem.read 1 = some 0x42 ∧
      valueOf 0x42 = some 1 ∧ (atText 0x42 0 6).nbits.toNat < 8 ∧ (atText 0x42 0 6).acc.toNat < 2 ^ 6 ∧ 8 ≤ 6 + 6) ∧
    ((atText 0x42 0 0).decAccumulating ∧ (atText 0x42 0 0).ipos.toNat < 2 ∧
      (atText 0x42 0 0).acc.toNat < 2 ^ 0 ∧ 0 + 6 < 8) := by decide

/-- The premises of the clause on groups of four, at the first character. -/
theorem wit_DecSymEffect_first_of_group :
    (running [0x41, 0x42] .decode .accumulating 0 0 0 0).Inv ∧
    (running [0x41, 0x42] .decode .accumulating 0 0 0 0).symsFit ∧
    (running [0x41, 0x42] .decode .accumulating 0 0 0 0).symsTaken = 0 :=
  ⟨by decide, by decide, by decide⟩

/-- The same at the second. -/
theorem wit_DecSymEffect_second_of_group :
    (atText 0x42 0 6).Inv ∧ (atText 0x42 0 6).symsFit ∧ (atText 0x42 0 6).symsTaken = 1 :=
  ⟨by decide, by decide, by decide⟩

theorem wit_SymCountIsKept :
    (atText 0x42 0 6).Inv ∧ (atText 0x42 0 6).symsFit ∧
    step (atText 0x42 0 6) = .next (nextOr (step (atText 0x42 0 6)) (atText 0x42 0 6)) :=
  ⟨by decide, by decide, rfl⟩

/-- DEC.EMIT with twelve valid bits. -/
def atDecEmit : State := running [0x41, 0x42] .decode .emitting 0x001 12 2 0

theorem wit_DecEmitEffect :
    atDecEmit.decEmitting ∧ atDecEmit.opos.toNat < atDecEmit.outMem.size ∧
    atDecEmit.outMem.wf = true ∧ atDecEmit.accFits := by decide

/-- DEC.END with two bits left. -/
def atDecEnd : State := running [0x41, 0x42, 0x43] .decode .accumulating 0b10 2 3 2

theorem wit_DecEndEffect : atDecEnd.decAccumulating ∧ atDecEnd.ipos = atDecEnd.tlen := by decide

def decodeLaunch (last : Byte) : State := launch [0x41, last] 2 1 [.write 0 3]

theorem wit_DecodeComputesReference :
    ((decodeLaunch 0x42).busy = false ∧ (decodeLaunch 0x42).inMem.wf = true ∧
      (decodeLaunch 0x42).outMem.wf = true ∧ (decodeLaunch 0x42).decodeLegal 2 ∧
      maxDecodedLength 2 ≤ 1 ∧ (decodeLaunch 0x42).inputs = [.write 0 3] ∧
      validPrefix ((decodeLaunch 0x42).inMem.firstUnits 2) = (decodeLaunch 0x42).inMem.firstUnits 2) ∧
    ((decodeLaunch 0x3D).decodeLegal 2 ∧
      validPrefix ((decodeLaunch 0x3D).inMem.firstUnits 2) ≠
        (decodeLaunch 0x3D).inMem.firstUnits 2) := by decide

theorem wit_StepRunsPresentedWord :
    decode (.cmd ((3 : LenWord).setWidth 2)) = .ok .decode ∧
    (atByte.busy = true ∧ decode atByte.engineWord = .ok .encByte ∧ atByte.inputs = []) ∧
    ({ atByte with inputs := [.wait] } : State).inputs = [.wait] ∧
    ({ atByte with inputs := [.engine] } : State).inputs = [.engine] := by decide

theorem wit_StepDispatch :
    (atByte.inputs = [] ∧ atByte.op = .encode ∧ atByte.ctl = .accumulating ∧
      atByte.ipos.toNat < atByte.tlen.toNat) ∧
    (atFlush1.inputs = [] ∧ atFlush1.ipos = atFlush1.tlen ∧ atFlush1.nbits ≠ 0) ∧
    (atTerm.inputs = [] ∧ atTerm.ipos = atTerm.tlen ∧ atTerm.nbits = 0) ∧
    ((atEmit 0 8).inputs = [] ∧ (atEmit 0 8).ctl = .emitting) ∧
    ((atText 0x20 0 6).op = .decode ∧ (atText 0x20 0 6).inMem.read 1 = some 0x20 ∧
      r105Whitespace 0x20) ∧
    ((atText 0x41 0 6).inMem.read 1 = some (charOf 0)) ∧
    ((atText 0x7B 0 6).inMem.read 1 = some 0x7B ∧ r105Invalid 0x7B) ∧
    (atDecEnd.op = .decode ∧ atDecEnd.ctl = .accumulating ∧ atDecEnd.ipos = atDecEnd.tlen) ∧
    (atDecEmit.op = .decode ∧ atDecEmit.ctl = .emitting) := by decide

theorem wit_CommandWrite :
    (launch [] 0 0 [.write 0 0xFE]).inputs = [.write 0 0xFE] ∧ (0xFC : LenWord).toNat % 4 = 0 ∧
    (0xFD : LenWord).toNat % 4 = 1 ∧ (0xFE : LenWord).toNat % 4 = 2 ∧
    (0xFF : LenWord).toNat % 4 = 3 := by decide

theorem wit_BusyBlockIgnoresWrites :
    ({ atByte with inputs := [.write 1 9] } : State).busy = true ∧
    ({ atFlush1 with inputs := [.read 3] } : State).busy = true ∧
    ({ atFlush1 with inputs := [.read 3] } : State).Inv := by decide

theorem wit_RegisterPort :
    (launch [] 0 0 [.write 1 9]).busy = false ∧ (launch [] 0 0 [.write 2 9]).busy = false ∧
    (launch [] 0 0 [.write 3 9]).inputs = [.write 3 9] ∧
    (launch [] 0 0 [.read 6]).inputs = [.read 6] := by decide

theorem wit_StateTableIsComplete :
    step atByte = .next (nextOr (step atByte) atByte) ∧
    step { atByte with inputs := [.reset] } =
      .next (nextOr (step { atByte with inputs := [.reset] }) atByte) := ⟨rfl, rfl⟩

theorem wit_AcceptanceIgnoresLastOutcome :
    Instr.encode ∈ [Instr.minlen, .maxlen, .encode, .decode] ∧ CtlState.busy .idle = false ∧
    CtlState.busy .failed = false := by decide

theorem wit_NotBusyIsStable :
    (launch [] 0 0 []).busy = false ∧ (∀ n data rest, (launch [] 0 0 []).inputs ≠ .write n data :: rest) ∧
    (∀ rest, (launch [] 0 0 []).inputs ≠ .reset :: rest) ∧
    step (launch [] 0 0 []) = .next (launch [] 0 0 []) :=
  ⟨rfl, fun _ _ _ h => (by cases h), fun _ h => (by cases h), rfl⟩

def shortEncode : State := launch [0x00] 1 2 []

theorem wit_ErrorCauses :
    (exec .encode shortEncode = .next (nextOr (exec .encode shortEncode) shortEncode) ∧
      (nextOr (exec .encode shortEncode) shortEncode).err = .insufficientSpace ∧
      shortEncode.err = .ok) ∧
    (exec (.decInv 0x3D) (atText 0x3D 0 6) =
        .next (nextOr (exec (.decInv 0x3D) (atText 0x3D 0 6)) shortEncode) ∧
      (nextOr (exec (.decInv 0x3D) (atText 0x3D 0 6)) shortEncode).err = .invalidInput ∧
      (atText 0x3D 0 6).err = .ok) := ⟨⟨rfl, rfl, rfl⟩, ⟨rfl, rfl, rfl⟩⟩

theorem wit_FailureIsPrecise :
    exec (.decInv 0x3D) (atText 0x3D 0 6) =
      .next (nextOr (exec (.decInv 0x3D) (atText 0x3D 0 6)) atByte) ∧
    (nextOr (exec (.decInv 0x3D) (atText 0x3D 0 6)) atByte).ctl = .failed ∧
    (nextOr (exec (.decInv 0x3D) (atText 0x3D 0 6)) atByte).ipos ≠ (atText 0x3D 0 6).ipos ∧
    (atText 0x3D 0 6).errFits ∧ (atText 0x3D 0 6).busy = true :=
  ⟨rfl, rfl, by decide, by decide, rfl⟩

theorem wit_EngineLeavesOperands_ResultWriters :
    exec .decEnd atDecEnd = .next (nextOr (exec .decEnd atDecEnd) atDecEnd) ∧
    (nextOr (exec .decEnd atDecEnd) atDecEnd).count ≠ atDecEnd.count ∧
    exec .minlen shortEncode = .next (nextOr (exec .minlen shortEncode) shortEncode) ∧
    (nextOr (exec .minlen shortEncode) shortEncode).result ≠ shortEncode.result :=
  ⟨rfl, by decide, rfl, by decide⟩

theorem wit_OutWriters :
    exec .encTerm atTerm = .next (nextOr (exec .encTerm atTerm) atTerm) ∧
    (nextOr (exec .encTerm atTerm) atTerm).outMem.read 0 ≠ atTerm.outMem.read 0 := ⟨rfl, by decide⟩

theorem wit_MicroStepNeedsBusy : shortEncode.busy = false := rfl

theorem wit_IllegalLaunchRefused :
    (launch [0x00] 2 0 []).busy = false ∧ (launch [0x00] 2 0 []).inMem.size < 2 ∧
    ((launch [0x00] 1 9 []).inMem.size = 1 ∧ (launch [0x00] 1 9 []).outMem.size < 9) ∧
    (launch [] 0x7FFFFFFF 0 []).len.toNat < 2 ^ (Config.lenW - 1) ∧
    (2 ^ (Config.lenW - 1) ≤ (launch [] 0x80000000 0 []).len.toNat ∧
      ∀ z, (launch [] 0x80000000 0 []).inMem.read z ≠ some 0x00) :=
  ⟨rfl, by decide, by decide, by decide, by decide, fun z h => absurd h (by
    have e : (launch [] 0x80000000 0 []).inMem.read z = none := by
      show (if z < 0 then _ else none) = none
      simp
    rw [e]; simp)⟩

theorem wit_ProvidedUnits :
    (launch [] 0 0 [.provideIn [0x41] 2]).inputs = [.provideIn [0x41] 2] ∧
    (launch [] 0 0 [.provideIn [0x41] 2]).busy = false ∧ [(0x41 : Byte)].length + 2 ≤ 2 ^ Config.lenW ∧
    ({ atByte with inputs := [.provideOut [0x41] 2] } : State).busy = true := by decide

theorem wit_HostReadOfOut :
    (launch [] 0 0 [.readOut 7]).inputs = [.readOut 7] ∧
    (launch [] 0 0 [.readOut 7]).outMem.read 7 = some 0xEE ∧
    (launch [] 0 0 [.readOut 7]).busy = false ∧
    ({ atByte with inputs := [.readOut 0] } : State).busy = true ∧
    ({ atByte with inputs := [.readOut 0] } : State).outMem.read 0 = some 0xEE := by decide

theorem wit_CanonicalSpacesAreExtensional :
    (Memory.ofUnits [0x41, 0x00] 0).wf = true ∧ (Memory.ofUnits [0x41] 1).wf = true ∧
    (Memory.ofUnits [0x41, 0x00] 0).size = (Memory.ofUnits [0x41] 1).size ∧
    ∀ i, (Memory.ofUnits [0x41, 0x00] 0).read i = (Memory.ofUnits [0x41] 1).read i :=
  ⟨by decide, by decide, rfl, fun _ => rfl⟩

theorem wit_NoWriteAtOrAboveCap :
    atFlush1.Inv ∧ (∀ units pad rest, atFlush1.inputs ≠ .provideOut units pad :: rest) ∧
    step atFlush1 = .next (nextOr (step atFlush1) atFlush1) ∧ atFlush1.cap.toNat ≤ 8 :=
  ⟨by decide, fun _ _ _ h => (by cases h), rfl, by decide⟩

/-- The same while the host waits. -/
theorem wit_NoWriteAtOrAboveCap_wait :
    (∀ units pad rest, ({ atFlush1 with inputs := [.wait] } : State).inputs ≠ .provideOut units pad :: rest) ∧
    step { atFlush1 with inputs := [.wait] } =
      .next (nextOr (step { atFlush1 with inputs := [.wait] }) atFlush1) :=
  ⟨fun _ _ _ h => (by cases h), rfl⟩

theorem wit_ResetEffect : ({ atByte with inputs := [.reset] } : State).inputs = [.reset] := rfl

theorem wit_WaitPollsStatus :
    ({ launch [] 0 0 [.wait] with ctl := .done } : State).ctl = .done ∧
    ({ launch [] 0 0 [.wait] with ctl := .failed } : State).ctl = .failed ∧
    (launch [] 0 0 [.wait]).ctl = .idle ∧
    ({ atFlush1 with inputs := [.wait] } : State).busy = true ∧
    decode ({ atFlush1 with inputs := [.wait] } : State).engineWord = .ok .encFlush ∧
    step { atFlush1 with inputs := [.wait] } =
      .next (nextOr (step { atFlush1 with inputs := [.wait] }) atFlush1) :=
  ⟨rfl, rfl, rfl, rfl, rfl, rfl⟩

theorem wit_StepKeepsInvariant :
    atFlush2.Inv ∧ step atFlush2 = .next (nextOr (step atFlush2) atFlush2) := ⟨by decide, rfl⟩

theorem wit_BusyEngineProgresses :
    atFlush2.Inv ∧ atFlush2.busy = true ∧ atFlush2.inputs = [] := by decide

/-- A launch from Failed, whose run must start all the same. -/
theorem wit_CommandsEnd_from_failed :
    ({ encodeLaunch with ctl := .failed, err := .invalidInput } : State).Inv ∧
    ({ encodeLaunch with ctl := .failed, err := .invalidInput } : State).busy = false := by decide

theorem wit_CommandsEnd :
    encodeLaunch.Inv ∧ encodeLaunch.busy = false ∧ encodeLaunch.inputs = [.write 0 2] ∧
    step encodeLaunch = .next (nextOr (step encodeLaunch) encodeLaunch) ∧
    (nextOr (step encodeLaunch) encodeLaunch).op = .encode ∧
    step (decodeLaunch 0x42) = .next (nextOr (step (decodeLaunch 0x42)) encodeLaunch) ∧
    (nextOr (step (decodeLaunch 0x42)) encodeLaunch).op = .decode ∧
    step (launch [] 0 0 [.write 0 0]) = .next (nextOr (step (launch [] 0 0 [.write 0 0])) encodeLaunch) :=
  ⟨by decide, rfl, rfl, rfl, rfl, rfl, rfl, rfl⟩

end Sys2Proof.Tests
end

section
/-! # What an instruction can do, said once

`ExecNext i s t` lists every way in which instruction `i` answers the next state `t` from `s`, guards
included; `execNext_of_exec` ties it to `exec`. Frames and invariants are case analyses of it. -/

namespace Sys2Proof.Machine

/-- All the ways an instruction answers a next state, one constructor each. -/
inductive ExecNext : Instr → State → State → Prop where
  /-- 44_control.md R191. -/
  | ignored {i : Instr} {s : State} (cmd : i ∈ [Instr.minlen, .maxlen, .encode, .decode])
      (busy : s.busy = true) : ExecNext i s s
  /-- 41_size_functions.md R132. -/
  | minlen {s : State} (notBusy : s.busy = false) :
      ExecNext .minlen s ((s.accept .minlen).finishSize (minEncodedLength s.len.toNat))
  /-- 41_size_functions.md R133. -/
  | maxlen {s : State} (notBusy : s.busy = false) :
      ExecNext .maxlen s ((s.accept .maxlen).finishSize (maxDecodedLength s.len.toNat))
  /-- 42_encode.md R142, the capacity too small. -/
  | encodeFails {i : Instr} {s : State} (form : i = .encode ∨ i = .encStart s.ctl)
      (notBusy : s.busy = false) (legal : s.encodeLegal)
      (short : s.cap.toNat < minEncodedLength s.len.toNat) :
      ExecNext i s (({ s.accept .encode with tlen := s.len } : State).raise .insufficientSpace)
  /-- 42_encode.md R142, the else branch. -/
  | encodeStarts {i : Instr} {s : State} (form : i = .encode ∨ i = .encStart s.ctl)
      (notBusy : s.busy = false) (legal : s.encodeLegal)
      (room : minEncodedLength s.len.toNat ≤ s.cap.toNat) :
      ExecNext i s ({ s.accept .encode with tlen := s.len } : State).startRun
  /-- 43_decode.md R161, the capacity too small. -/
  | decodeFails {i : Instr} {s : State} {l : LenWord} (form : i = .decode ∨ i = .decStart s.ctl)
      (notBusy : s.busy = false) (length : effectiveLength s = .ok l)
      (legal : s.cap.toNat ≤ s.outMem.size) (short : s.cap.toNat < maxDecodedLength l.toNat) :
      ExecNext i s (({ s.accept .decode with tlen := l } : State).raise .insufficientSpace)
  /-- 43_decode.md R161, the else branch. -/
  | decodeStarts {i : Instr} {s : State} {l : LenWord} (form : i = .decode ∨ i = .decStart s.ctl)
      (notBusy : s.busy = false) (length : effectiveLength s = .ok l)
      (legal : s.cap.toNat ≤ s.outMem.size) (room : maxDecodedLength l.toNat ≤ s.cap.toNat) :
      ExecNext i s ({ s.accept .decode with tlen := l } : State).startRun
  /-- 42_encode.md R143. -/
  | encByte {s : State} {b : Byte} (mode : s.encAccumulating) (more : s.ipos.toNat < s.tlen.toNat)
      (few : s.nbits.toNat < 6) (unit : s.unitAtIpos = some b) :
      ExecNext .encByte s { s with
        acc := shiftInByte s.acc b, nbits := s.nbits + 8, ipos := s.ipos + 1, ctl := .emitting }
  /-- 42_encode.md R144. -/
  | encEmit {s : State} {m : Memory} (emit : s.encEmitting)
      (store : s.outMem.write s.opos.toNat (charOf (topSym s.acc s.nbits)) = some m) :
      ExecNext .encEmit s { s with
        outMem := m, charOut := charOf (topSym s.acc s.nbits), opos := s.opos + 1,
        nbits := s.nbits - 6, acc := maskValid s.acc (s.nbits - 6),
        ctl := ctlByCount 6 (s.nbits - 6) }
  /-- 42_encode.md R145. -/
  | encFlush {s : State} {m : Memory} (mode : s.encAccumulating) (last : s.ipos = s.tlen)
      (left : 0 < s.nbits.toNat) (few : s.nbits.toNat < 6)
      (store : s.outMem.write s.opos.toNat (charOf (flushSym s.acc s.nbits)) = some m) :
      ExecNext .encFlush s { s with
        outMem := m, charOut := charOf (flushSym s.acc s.nbits), opos := s.opos + 1, acc := 0,
        nbits := 0, ctl := .accumulating }
  /-- 42_encode.md R146. -/
  | encTerm {s : State} {m : Memory} (mode : s.encAccumulating) (last : s.ipos = s.tlen)
      (empty : s.nbits = 0) (store : s.outMem.write s.opos.toNat Config.term = some m) :
      ExecNext .encTerm s { s with outMem := m, count := s.opos, ctl := .done }
  /-- 43_decode.md R163. -/
  | decWs {w : Whitespace} {s : State} (unit : s.atUnit w.code) :
      ExecNext (.decWs w) s { s with ipos := s.ipos + 1 }
  /-- 43_decode.md R164. -/
  | decInv {c : Byte} {s : State} (unit : s.atUnit c) (invalid : isInvalidUnit c = true) :
      ExecNext (.decInv c) s { s with ipos := s.ipos + 1, err := .invalidInput, ctl := .failed }
  /-- 43_decode.md R165. -/
  | decSym {v : Sym} {s : State} (unit : s.atUnit (charOf v)) (few : s.nbits.toNat < 8) :
      ExecNext (.decSym v) s { s with
        acc := shiftInSym s.acc v, nbits := s.nbits + 6, ipos := s.ipos + 1,
        ctl := ctlByCount 8 (s.nbits + 6) }
  /-- 43_decode.md R166. -/
  | decEmit {s : State} {m : Memory} (emit : s.decEmitting)
      (store : s.outMem.write s.opos.toNat (topByte s.acc s.nbits) = some m) :
      ExecNext .decEmit s { s with
        outMem := m, opos := s.opos + 1, nbits := s.nbits - 8,
        acc := maskValid s.acc (s.nbits - 8), ctl := ctlByCount 8 (s.nbits - 8) }
  /-- 43_decode.md R167. -/
  | decEnd {s : State} (mode : s.decAccumulating) (last : s.ipos = s.tlen) :
      ExecNext .decEnd s { s with count := s.opos, ctl := .done }
  /-- 40_alphabet.md R120. -/
  | encSym {v : Sym} {s : State} : ExecNext (.encSym v) s (s.lookupChar v)

/-- All that a command can do (44_control.md R190, R191). -/
theorem State.onCommand_eq_next {s t : State} {op : Op} {body : State → Result} :
    s.onCommand op body = .next t ↔
      s.busy = true ∧ t = s ∨ s.busy = false ∧ body (s.accept op) = .next t := by
  cases hb : s.busy
  · simp [State.onCommand_notBusy hb]
  · simp [State.onCommand_busy hb, eq_comm]

theorem execMinlen_eq_next {s t : State} :
    execMinlen s = .next t ↔ s.busy = true ∧ t = s ∨
      s.busy = false ∧ t = (s.accept .minlen).finishSize (minEncodedLength s.len.toNat) := by
  unfold execMinlen
  simp only [State.onCommand_eq_next, Host.Outcome.next.injEq, State.accept_len, eq_comm (b := t)]

theorem execMaxlen_eq_next {s t : State} :
    execMaxlen s = .next t ↔ s.busy = true ∧ t = s ∨
      s.busy = false ∧ t = (s.accept .maxlen).finishSize (maxDecodedLength s.len.toNat) := by
  unfold execMaxlen
  simp only [State.onCommand_eq_next, Host.Outcome.next.injEq, State.accept_len, eq_comm (b := t)]

/-- The acceptance of an ENCODE, by the command or by ENC.START. -/
theorem execNext_of_encStartBody {i : Instr} {s t : State}
    (form : i = .encode ∨ i = .encStart s.ctl) (notBusy : s.busy = false)
    (h : encStartBody (s.accept .encode) = .next t) : ExecNext i s t := by
  obtain ⟨hin, hout, ⟨short, rfl⟩ | ⟨room, rfl⟩⟩ := encStartBody_eq_next.mp h
  · exact .encodeFails form notBusy ⟨hin, hout⟩ short
  · exact .encodeStarts form notBusy ⟨hin, hout⟩ room

/-- The acceptance of a DECODE, by the command or by DEC.START. -/
theorem execNext_of_decStartBody {i : Instr} {s t : State}
    (form : i = .decode ∨ i = .decStart s.ctl) (notBusy : s.busy = false)
    (h : decStartBody (s.accept .decode) = .next t) : ExecNext i s t := by
  obtain ⟨l, length, legal, ⟨short, rfl⟩ | ⟨room, rfl⟩⟩ := decStartBody_eq_next.mp h
  · exact .decodeFails form notBusy length legal short
  · exact .decodeStarts form notBusy length legal room

theorem execNext_of_exec {i : Instr} {s t : State} (h : exec i s = .next t) : ExecNext i s t := by
  cases i with
  | minlen =>
    obtain ⟨busy, rfl⟩ | ⟨notBusy, rfl⟩ := execMinlen_eq_next.mp h
    · exact .ignored (by simp) busy
    · exact .minlen notBusy
  | maxlen =>
    obtain ⟨busy, rfl⟩ | ⟨notBusy, rfl⟩ := execMaxlen_eq_next.mp h
    · exact .ignored (by simp) busy
    · exact .maxlen notBusy
  | encode =>
    obtain ⟨busy, rfl⟩ | ⟨notBusy, h⟩ := State.onCommand_eq_next.mp h
    · exact .ignored (by simp) busy
    · exact execNext_of_encStartBody (.inl rfl) notBusy h
  | decode =>
    obtain ⟨busy, rfl⟩ | ⟨notBusy, h⟩ := State.onCommand_eq_next.mp h
    · exact .ignored (by simp) busy
    · exact execNext_of_decStartBody (.inl rfl) notBusy h
  | encStart st =>
    obtain ⟨rfl, notBusy, h⟩ := execEncStart_eq_next.mp h
    exact execNext_of_encStartBody (.inr rfl) notBusy h
  | decStart st =>
    obtain ⟨rfl, notBusy, h⟩ := execDecStart_eq_next.mp h
    exact execNext_of_decStartBody (.inr rfl) notBusy h
  | encByte =>
    obtain ⟨⟨mode, more, few⟩, b, unit, rfl⟩ := execEncByte_eq_next.mp h
    exact .encByte mode more few unit
  | encEmit =>
    obtain ⟨emit, m, store, rfl⟩ := execEncEmit_eq_next.mp h
    exact .encEmit emit store
  | encFlush =>
    obtain ⟨⟨mode, last, left, few⟩, m, store, rfl⟩ := execEncFlush_eq_next.mp h
    exact .encFlush mode last left few store
  | encTerm =>
    obtain ⟨⟨mode, last, empty⟩, m, store, rfl⟩ := execEncTerm_eq_next.mp h
    exact .encTerm mode last empty store
  | decWs w =>
    obtain ⟨unit, rfl⟩ := execDecWs_eq_next.mp h
    exact .decWs unit
  | decInv c =>
    obtain ⟨⟨unit, invalid⟩, rfl⟩ := execDecInv_eq_next.mp h
    exact .decInv unit invalid
  | decSym v =>
    obtain ⟨⟨unit, few⟩, rfl⟩ := execDecSym_eq_next.mp h
    exact .decSym unit few
  | decEmit =>
    obtain ⟨emit, m, store, rfl⟩ := execDecEmit_eq_next.mp h
    exact .decEmit emit store
  | decEnd =>
    obtain ⟨⟨mode, last⟩, rfl⟩ := execDecEnd_eq_next.mp h
    exact .decEnd mode last
  | encSym v => cases h; exact .encSym

/-- Settles O40: no way in which an instruction answers a next state has LEN, CAP or IN among what it
writes. -/
theorem engineLeavesOperands : Obligations.EngineLeavesOperands := by
  intro i s t h
  cases execNext_of_exec h <;> exact ⟨rfl, rfl, rfl⟩

/-- Settles O41: ENC.TERM and DEC.END are the ways that write COUNT, MINLEN and MAXLEN those that write
RESULT. -/
theorem resultWriters : Obligations.ResultWriters := by
  intro i s t h
  cases execNext_of_exec h with
  | minlen => exact ⟨fun hc => absurd rfl hc, fun _ => .inl rfl⟩
  | maxlen => exact ⟨fun hc => absurd rfl hc, fun _ => .inr rfl⟩
  | encTerm => exact ⟨fun _ => .inl rfl, fun hr => absurd rfl hr⟩
  | decEnd => exact ⟨fun _ => .inr rfl, fun hr => absurd rfl hr⟩
  | _ => exact ⟨fun hc => absurd rfl hc, fun hr => absurd rfl hr⟩

theorem State.reset_portRead (n : Nat) : State.reset.portRead n = 0 := by
  match n with
  | 0 | 1 | 2 | 3 | 4 | 5 => rfl
  | _ + 6 => rfl

/-- Settles O50: every field of the reset state is given, and each register number reads one. -/
theorem resetState : Obligations.ResetState :=
  ⟨State.reset_portRead, rfl, rfl, rfl, rfl, rfl, rfl, rfl, rfl⟩

end Sys2Proof.Machine
end

section
/-! # The invariant of the block is kept by every step

First the arithmetic of the valid-bit count, then the two runs, then one lemma per part of the
invariant over the ways an instruction answers, and last the host's actions. -/

namespace Sys2Proof.Machine

/-! ## The valid-bit count and the accumulator -/

theorem nbits_add_eight {n : NbWord} (h : n.toNat < 8) : (n + 8).toNat = n.toNat + 8 :=
  BitVec.toNat_add_of_lt (Nat.add_lt_add_right h 8)

theorem nbits_add_six {n : NbWord} (h : n.toNat < 8) : (n + 6).toNat = n.toNat + 6 :=
  BitVec.toNat_add_of_lt (Nat.lt_of_lt_of_le (Nat.add_lt_add_right h 6) (by decide))

theorem nbits_sub_six {n : NbWord} (h : 6 ≤ n.toNat) : (n - 6).toNat = n.toNat - 6 :=
  BitVec.toNat_sub_of_le h

theorem nbits_sub_eight {n : NbWord} (h : 8 ≤ n.toNat) : (n - 8).toNat = n.toNat - 8 :=
  BitVec.toNat_sub_of_le h

theorem ctlByCount_eq_accumulating {k : Nat} {n : NbWord} :
    ctlByCount k n = .accumulating ↔ n.toNat < k := by
  unfold ctlByCount; split <;> simp <;> omega

theorem ctlByCount_eq_emitting {k : Nat} {n : NbWord} : ctlByCount k n = .emitting ↔ k ≤ n.toNat := by
  unfold ctlByCount; split <;> simp <;> omega

theorem ctlByCount_ne_failed (k : Nat) (n : NbWord) : ctlByCount k n ≠ .failed := by
  unfold ctlByCount; split <;> simp

theorem maskValid_lt (acc : AccWord) (n : NbWord) : (maskValid acc n).toNat < 2 ^ n.toNat :=
  maskValid_toNat acc n ▸ Nat.mod_lt _ (Nat.two_pow_pos _)

/-- An empty accumulator, as at the start of a run, is within its bounds. -/
theorem empty_acc_fits :
    (0 : AccWord).toNat < 2 ^ (0 : NbWord).toNat ∧ (0 : NbWord).toNat ≤ 12 := by decide

/-- A byte shifted in below at most four valid bits: ACC stays below `2 ^ NBITS`. -/
theorem shiftInByte_lt {acc : AccWord} {n : NbWord} (b : Byte) (h : acc.toNat < 2 ^ n.toNat)
    (hn : n.toNat ≤ 4) : (shiftInByte acc b).toNat < 2 ^ (n + 8).toNat := by
  have small : acc.toNat < 2 ^ 4 := Nat.lt_of_lt_of_le h (Nat.pow_le_pow_right (by decide) hn)
  rw [shiftInByte_toNat b small, nbits_add_eight (by omega), Nat.pow_add]
  have := b.isLt
  omega

/-- A value shifted in below at most six valid bits: ACC stays below `2 ^ NBITS`. -/
theorem shiftInSym_lt {acc : AccWord} {n : NbWord} (v : Sym) (h : acc.toNat < 2 ^ n.toNat)
    (hn : n.toNat ≤ 6) : (shiftInSym acc v).toNat < 2 ^ (n + 6).toNat := by
  have small : acc.toNat < 2 ^ 6 := Nat.lt_of_lt_of_le h (Nat.pow_le_pow_right (by decide) hn)
  rw [shiftInSym_toNat v small, nbits_add_six (by omega), Nat.pow_add]
  have := v.isLt
  omega

/-! ## What the invariant says of a running ENCODE and of a running DECODE -/

theorem State.Inv.encRun {s : State} (h : s.Inv) (op : s.op = .encode) (busy : s.busy = true) :
    s.ipos.toNat ≤ s.tlen.toNat ∧ s.tlen.toNat ≤ s.inMem.size ∧ s.cap.toNat ≤ s.outMem.size ∧
      s.encFits := by
  obtain ⟨-, -, -, run⟩ := h
  obtain ⟨hi, hin, hout, ⟨-, fits⟩ | ⟨op', -⟩⟩ := run busy
  · exact ⟨hi, hin, hout, fits⟩
  · rw [op] at op'; cases op'

theorem State.Inv.decRun {s : State} (h : s.Inv) (op : s.op = .decode) (busy : s.busy = true) :
    s.ipos.toNat ≤ s.tlen.toNat ∧ s.tlen.toNat ≤ s.inMem.size ∧ s.cap.toNat ≤ s.outMem.size ∧
      s.decFits := by
  obtain ⟨-, -, -, run⟩ := h
  obtain ⟨hi, hin, hout, ⟨op', -⟩ | ⟨-, fits⟩⟩ := run busy
  · rw [op] at op'; cases op'
  · exact ⟨hi, hin, hout, fits⟩

/-- Outside a run the invariant asks nothing of the cursors. -/
theorem State.runFits_of_notBusy {s : State} (h : s.busy = false) : s.runFits :=
  fun busy => by simp [h] at busy

theorem State.busy_of_accumulating {s : State} (h : s.ctl = .accumulating) : s.busy = true := by
  simp [State.busy, h, CtlState.busy]

theorem State.busy_of_emitting {s : State} (h : s.ctl = .emitting) : s.busy = true := by
  simp [State.busy, h, CtlState.busy]

/-- `encFits` with the lists of 10_state.md R33 (c) as parity and bounds. -/
theorem State.encFits_iff {s : State} : s.encFits ↔
    minEncodedLength s.tlen.toNat ≤ s.cap.toNat ∧
    (s.ctl = .accumulating → s.nbits.toNat % 2 = 0 ∧ s.nbits.toNat ≤ 4) ∧
    (s.ctl = .emitting → s.nbits.toNat % 2 = 0 ∧ 6 ≤ s.nbits.toNat ∧ s.nbits.toNat ≤ 12) ∧
    (6 * s.opos.toNat + s.nbits.toNat = 8 * s.ipos.toNat ∨
      (s.ctl = .accumulating ∧ s.ipos = s.tlen ∧ s.nbits = 0 ∧
        s.opos.toNat + 1 = minEncodedLength s.tlen.toNat)) := by
  have left : s.nbits.toNat ∈ [0, 2, 4] ↔ s.nbits.toNat % 2 = 0 ∧ s.nbits.toNat ≤ 4 := by
    simp only [List.mem_cons, List.not_mem_nil, or_false]; omega
  have ready : s.nbits.toNat ∈ [6, 8, 10, 12] ↔
      s.nbits.toNat % 2 = 0 ∧ 6 ≤ s.nbits.toNat ∧ s.nbits.toNat ≤ 12 := by
    simp only [List.mem_cons, List.not_mem_nil, or_false]; omega
  rw [State.encFits, left, ready]

/-- `decFits` with the lists of 10_state.md R33 (d) as parity and bounds. -/
theorem State.decFits_iff {s : State} : s.decFits ↔
    maxDecodedLength s.tlen.toNat ≤ s.cap.toNat ∧
    (s.ctl = .accumulating → s.nbits.toNat % 2 = 0 ∧ s.nbits.toNat ≤ 6) ∧
    (s.ctl = .emitting → s.nbits.toNat % 2 = 0 ∧ 8 ≤ s.nbits.toNat ∧ s.nbits.toNat ≤ 12) ∧
    8 * s.opos.toNat + s.nbits.toNat ≤ 6 * s.ipos.toNat := by
  have left : s.nbits.toNat ∈ [0, 2, 4, 6] ↔ s.nbits.toNat % 2 = 0 ∧ s.nbits.toNat ≤ 6 := by
    simp only [List.mem_cons, List.not_mem_nil, or_false]; omega
  have ready : s.nbits.toNat ∈ [8, 10, 12] ↔
      s.nbits.toNat % 2 = 0 ∧ 8 ≤ s.nbits.toNat ∧ s.nbits.toNat ≤ 12 := by
    simp only [List.mem_cons, List.not_mem_nil, or_false]; omega
  rw [State.decFits, left, ready]

/-- A running ENCODE writes below CAP (42_encode.md R147): the characters written never outnumber those
that the bytes taken in need. -/
theorem State.encFits.opos_lt_cap {s : State} (fits : s.encFits) (hi : s.ipos.toNat ≤ s.tlen.toNat) :
    s.opos.toNat < s.cap.toNat := by
  obtain ⟨room, -, -, bits⟩ := fits
  unfold minEncodedLength at room bits
  omega

/-- A running DECODE with a whole byte valid has room for it below CAP (43_decode.md R168). -/
theorem State.decFits.opos_lt_cap {s : State} (fits : s.decFits) (hi : s.ipos.toNat ≤ s.tlen.toNat)
    (whole : 8 ≤ s.nbits.toNat) : s.opos.toNat < s.cap.toNat := by
  obtain ⟨room, -, -, bits⟩ := fits
  unfold maxDecodedLength at room
  omega

/-- While bits are valid or bytes remain, every bit taken in is written or still valid. -/
theorem State.encFits.bits_eq {s : State} (fits : s.encFits)
    (unfinished : s.ipos ≠ s.tlen ∨ s.nbits ≠ 0) :
    6 * s.opos.toNat + s.nbits.toNat = 8 * s.ipos.toNat := by
  obtain ⟨-, -, -, bits | ⟨-, hi, hn, -⟩⟩ := fits
  · exact bits
  · exact (unfinished.elim (· hi) (· hn)).elim

/-! ## The micro-steps keep `encFits` and `decFits` -/

theorem encByte_keeps_encFits {s : State} {a : AccWord} (fits : s.encFits)
    (mode : s.ctl = .accumulating) (more : s.ipos.toNat < s.tlen.toNat) :
    ({ s with acc := a, nbits := s.nbits + 8, ipos := s.ipos + 1, ctl := .emitting } : State).encFits := by
  have bits := fits.bits_eq (.inl fun e => by simp [e] at more)
  obtain ⟨room, left, -, -⟩ := State.encFits_iff.mp fits
  obtain ⟨even, few⟩ := left mode
  refine State.encFits_iff.mpr ⟨room, nofun, fun _ => ?_, .inl ?_⟩ <;>
    simp only [nbits_add_eight (by omega : s.nbits.toNat < 8), succ_toNat more] <;> omega

theorem encEmit_keeps_encFits {s : State} {m : Memory} {u : Byte} {a : AccWord} (fits : s.encFits)
    (hi : s.ipos.toNat ≤ s.tlen.toNat) (emit : s.encEmitting) :
    ({ s with
      outMem := m, charOut := u, opos := s.opos + 1, nbits := s.nbits - 6, acc := a,
      ctl := ctlByCount 6 (s.nbits - 6) } : State).encFits := by
  obtain ⟨-, mode, whole⟩ := emit
  have bits := fits.bits_eq (.inr fun e => by simp [e] at whole)
  have pos := succ_toNat (fits.opos_lt_cap hi)
  obtain ⟨room, -, ready, -⟩ := State.encFits_iff.mp fits
  obtain ⟨even, -, most⟩ := ready mode
  refine State.encFits_iff.mpr ⟨room, fun h => ?_, fun h => ?_, .inl ?_⟩ <;>
    simp only [ctlByCount_eq_accumulating, ctlByCount_eq_emitting, nbits_sub_six whole, pos] at * <;>
    omega

theorem encFlush_keeps_encFits {s : State} {m : Memory} {u : Byte} (fits : s.encFits)
    (last : s.ipos = s.tlen) (left : 0 < s.nbits.toNat) (few : s.nbits.toNat < 6) :
    ({ s with
      outMem := m, charOut := u, opos := s.opos + 1, acc := 0, nbits := 0,
      ctl := .accumulating } : State).encFits := by
  have bits := fits.bits_eq (.inr fun e => by simp [e] at left)
  have pos := succ_toNat (fits.opos_lt_cap (Nat.le_of_eq (congrArg _ last)))
  obtain ⟨room, -, -, -⟩ := fits
  refine State.encFits_iff.mpr
    ⟨room, fun _ => ⟨rfl, Nat.zero_le 4⟩, nofun, .inr ⟨rfl, last, rfl, ?_⟩⟩
  simp only [pos, ← last, minEncodedLength]
  omega

theorem decWs_keeps_decFits {s : State} (fits : s.decFits) (more : s.ipos.toNat < s.tlen.toNat) :
    ({ s with ipos := s.ipos + 1 } : State).decFits := by
  obtain ⟨room, left, ready, bits⟩ := fits
  refine ⟨room, left, ready, ?_⟩
  simp only [succ_toNat more]
  omega

theorem decSym_keeps_decFits {s : State} {a : AccWord} (fits : s.decFits)
    (mode : s.ctl = .accumulating) (more : s.ipos.toNat < s.tlen.toNat) :
    ({ s with
      acc := a, nbits := s.nbits + 6, ipos := s.ipos + 1,
      ctl := ctlByCount 8 (s.nbits + 6) } : State).decFits := by
  obtain ⟨room, left, -, bits⟩ := State.decFits_iff.mp fits
  obtain ⟨even, few⟩ := left mode
  refine State.decFits_iff.mpr ⟨room, fun h => ?_, fun h => ?_, ?_⟩ <;>
    simp only [ctlByCount_eq_accumulating, ctlByCount_eq_emitting, succ_toNat more,
      nbits_add_six (by omega : s.nbits.toNat < 8)] at * <;>
    omega

theorem decEmit_keeps_decFits {s : State} {m : Memory} {a : AccWord} (fits : s.decFits)
    (hi : s.ipos.toNat ≤ s.tlen.toNat) (emit : s.decEmitting) :
    ({ s with
      outMem := m, opos := s.opos + 1, nbits := s.nbits - 8, acc := a,
      ctl := ctlByCount 8 (s.nbits - 8) } : State).decFits := by
  obtain ⟨-, mode, whole⟩ := emit
  have pos := succ_toNat (fits.opos_lt_cap hi whole)
  obtain ⟨room, -, ready, bits⟩ := State.decFits_iff.mp fits
  obtain ⟨even, -, most⟩ := ready mode
  refine State.decFits_iff.mpr ⟨room, fun h => ?_, fun h => ?_, ?_⟩ <;>
    simp only [ctlByCount_eq_accumulating, ctlByCount_eq_emitting, nbits_sub_eight whole, pos] at * <;>
    omega

/-! ## An instruction keeps each part of the invariant -/

/-- The length of an accepted DECODE lies in IN (20_memory.md R64 P2, P3). -/
theorem effectiveLength_le {s : State} {l : LenWord} (h : effectiveLength s = .ok l) :
    l.toNat ≤ s.inMem.size := by
  obtain ⟨-, z, hz, rfl⟩ | ⟨-, hin, rfl⟩ := effectiveLength_eq_ok.mp h
  · have := (Memory.read_eq_some.mp (Memory.firstTerm_eq_some.mp hz).1).1
    exact Nat.le_trans (Nat.mod_le _ _) (Nat.le_of_lt this)
  · exact hin

theorem ExecNext.keeps_spacesWf {i : Instr} {s t : State} (h : ExecNext i s t) (wf : s.spacesWf) :
    t.spacesWf := by
  obtain ⟨hin, hout, hbefore⟩ := wf
  cases h with
  | encodeStarts | decodeStarts => exact ⟨hin, hout, hout⟩
  | encEmit _ store | encFlush _ _ _ _ store | encTerm _ _ _ store | decEmit _ store =>
    exact ⟨hin, Memory.write_wf store hout, hbefore⟩
  | _ => exact ⟨hin, hout, hbefore⟩

/-- A step out of a busy state that leaves ERR and does not enter Failed. -/
theorem State.errFits.of_busy {s t : State} (fits : s.errFits) (busy : s.busy = true)
    (err : t.err = s.err) (ctl : t.ctl ≠ .failed) : t.errFits := by
  have notFailed : s.ctl ≠ .failed := fun e => by simp [State.busy, e, CtlState.busy] at busy
  exact iff_of_true (err.trans (fits.mpr notFailed)) ctl

theorem ExecNext.keeps_errFits {i : Instr} {s t : State} (h : ExecNext i s t) (fits : s.errFits) :
    t.errFits := by
  cases h with
  | ignored | decWs | encSym => exact fits
  | minlen | maxlen | encodeStarts | decodeStarts => exact iff_of_true rfl nofun
  | encodeFails | decodeFails | decInv => exact iff_of_false nofun (· rfl)
  | encByte mode | encFlush mode | encTerm mode | decEnd mode =>
    exact fits.of_busy (State.busy_of_accumulating mode.2) rfl nofun
  | decSym unit =>
    obtain ⟨mode, -, -⟩ := unit
    exact fits.of_busy (State.busy_of_accumulating mode.2) rfl (ctlByCount_ne_failed _ _)
  | encEmit emit | decEmit emit =>
    obtain ⟨-, mode, -⟩ := emit
    exact fits.of_busy (State.busy_of_emitting mode) rfl (ctlByCount_ne_failed _ _)

theorem ExecNext.keeps_accFits {i : Instr} {s t : State} (h : ExecNext i s t) (inv : s.Inv) :
    t.accFits := by
  have ⟨_, _, ⟨hacc, hn⟩, _⟩ := inv
  cases h with
  | encodeStarts | decodeStarts | encFlush => exact empty_acc_fits
  | encByte mode =>
    obtain ⟨-, -, -, fits⟩ := inv.encRun mode.1 (State.busy_of_accumulating mode.2)
    obtain ⟨-, left, -, -⟩ := State.encFits_iff.mp fits
    obtain ⟨-, few⟩ := left mode.2
    refine ⟨shiftInByte_lt _ hacc few, ?_⟩
    simp only [nbits_add_eight (by omega : s.nbits.toNat < 8)]
    omega
  | decSym unit =>
    obtain ⟨mode, -, -⟩ := unit
    obtain ⟨-, -, -, fits⟩ := inv.decRun mode.1 (State.busy_of_accumulating mode.2)
    obtain ⟨-, left, -, -⟩ := State.decFits_iff.mp fits
    obtain ⟨-, few⟩ := left mode.2
    refine ⟨shiftInSym_lt _ hacc few, ?_⟩
    simp only [nbits_add_six (by omega : s.nbits.toNat < 8)]
    omega
  | encEmit emit =>
    obtain ⟨-, -, whole⟩ := emit
    exact ⟨maskValid_lt _ _, by simp only [nbits_sub_six whole]; omega⟩
  | decEmit emit =>
    obtain ⟨-, -, whole⟩ := emit
    exact ⟨maskValid_lt _ _, by simp only [nbits_sub_eight whole]; omega⟩
  | _ => exact ⟨hacc, hn⟩

theorem ExecNext.keeps_runFits {i : Instr} {s t : State} (h : ExecNext i s t) (inv : s.Inv) :
    t.runFits := by
  have ⟨_, _, _, run⟩ := inv
  cases h with
  | ignored | encSym => exact run
  | minlen | maxlen | encodeFails | decodeFails | encTerm | decInv | decEnd =>
    exact State.runFits_of_notBusy rfl
  | encodeStarts _ _ legal room =>
    exact fun _ => ⟨Nat.zero_le _, legal.1, legal.2,
      .inl ⟨rfl, room, fun _ => List.mem_cons_self, nofun, .inl rfl⟩⟩
  | decodeStarts _ _ length legal room =>
    exact fun _ => ⟨Nat.zero_le _, effectiveLength_le length, legal,
      .inr ⟨rfl, room, fun _ => List.mem_cons_self, nofun, Nat.le_refl 0⟩⟩
  | encByte mode more =>
    obtain ⟨-, hin, hout, fits⟩ := inv.encRun mode.1 (State.busy_of_accumulating mode.2)
    exact fun _ => ⟨succ_toNat more ▸ more, hin, hout,
      .inl ⟨mode.1, encByte_keeps_encFits fits mode.2 more⟩⟩
  | encEmit emit store =>
    obtain ⟨hi, hin, hout, fits⟩ := inv.encRun emit.1 (State.busy_of_emitting emit.2.1)
    exact fun _ => ⟨hi, hin, hout.trans_eq (Memory.write_size store).symm,
      .inl ⟨emit.1, encEmit_keeps_encFits fits hi emit⟩⟩
  | encFlush mode last left few store =>
    obtain ⟨hi, hin, hout, fits⟩ := inv.encRun mode.1 (State.busy_of_accumulating mode.2)
    exact fun _ => ⟨hi, hin, hout.trans_eq (Memory.write_size store).symm,
      .inl ⟨mode.1, encFlush_keeps_encFits fits last left few⟩⟩
  | decWs unit =>
    obtain ⟨mode, more, -⟩ := unit
    obtain ⟨-, hin, hout, fits⟩ := inv.decRun mode.1 (State.busy_of_accumulating mode.2)
    exact fun _ => ⟨succ_toNat more ▸ more, hin, hout, .inr ⟨mode.1, decWs_keeps_decFits fits more⟩⟩
  | decSym unit =>
    obtain ⟨mode, more, -⟩ := unit
    obtain ⟨-, hin, hout, fits⟩ := inv.decRun mode.1 (State.busy_of_accumulating mode.2)
    exact fun _ => ⟨succ_toNat more ▸ more, hin, hout,
      .inr ⟨mode.1, decSym_keeps_decFits fits mode.2 more⟩⟩
  | decEmit emit store =>
    obtain ⟨hi, hin, hout, fits⟩ := inv.decRun emit.1 (State.busy_of_emitting emit.2.1)
    exact fun _ => ⟨hi, hin, hout.trans_eq (Memory.write_size store).symm,
      .inr ⟨emit.1, decEmit_keeps_decFits fits hi emit⟩⟩

theorem exec_keeps_inv {i : Instr} {s t : State} (inv : s.Inv) (h : exec i s = .next t) : t.Inv := by
  have ⟨wf, err, _, _⟩ := inv
  have way := execNext_of_exec h
  exact ⟨way.keeps_spacesWf wf, way.keeps_errFits err, way.keeps_accFits inv, way.keeps_runFits inv⟩

/-! ## The turn of a step -/

/-- The state an event leaves, or the state its instruction runs on, has the property. -/
def Turn.Holds (p : State → Prop) : Turn → Prop
  | .done t => p t
  | .run _ t => p t
  | .refuse _ => True

/-- What the turn gives and every instruction keeps, the step gives. -/
theorem step_gives {p : State → Prop} {s t : State} (hturn : s.turn.Holds p)
    (hexec : ∀ i u v, p u → exec i u = .next v → p v) (h : step s = .next t) : p t := by
  unfold step at h
  cases hs : s.turn with
  | done u => rw [hs] at h hturn; cases h; exact hturn
  | run i u => rw [hs] at h hturn; exact hexec i u t hturn h
  | refuse r => rw [hs] at h; cases h

/-- The engine's turn runs its micro-step on the state as it is. -/
theorem State.engineTurn_holds {p : State → Prop} {s : State} (h : p s) : s.engineTurn.Holds p := by
  unfold State.engineTurn
  split
  · split
    · exact h
    · trivial
  · exact h

theorem State.provide_holds {p : State → Prop} {s : State} {units : List Byte} {pad : Nat}
    {place : State → Memory → State}
    (h : s.busy = false → ∀ m : Memory, m.wf = true → p (place s m)) :
    (s.provide units pad place).Holds p := by
  unfold State.provide
  split
  · trivial
  · next notBusy =>
    split
    · trivial
    · next fits => exact h (by simpa using notBusy) _ (Memory.ofUnits_wf (Nat.le_of_not_lt fits))

/-- A host read of OUT changes the read data and the index of the free choice only. -/
theorem State.hostReadOut_holds {p : State → Prop} {s : State} {j : Nat}
    (h : ∀ r k, p { s with rdata := r, freeCount := k }) : (s.hostReadOut j).Holds p := by
  unfold State.hostReadOut
  split
  · trivial
  · split
    · exact h _ _
    · exact h _ s.freeCount

/-- A register write runs a command on the state as it is, or, when not busy, sets LEN or CAP. -/
theorem State.portWrite_holds {p : State → Prop} {s : State} {n : Nat} {data : LenWord} (h : p s)
    (hlen : s.busy = false → p { s with len := data })
    (hcap : s.busy = false → p { s with cap := data }) : (s.portWrite n data).Holds p := by
  unfold State.portWrite
  split
  · exact h
  · cases hb : s.busy
    · exact hlen hb
    · exact h
  · cases hb : s.busy
    · exact hcap hb
    · exact h
  · exact h

/-- Reset gives a not-busy block with an empty accumulator and leaves the spaces. -/
theorem State.rst_inv {s : State} (wf : s.spacesWf) : s.rst.Inv :=
  ⟨wf, iff_of_true rfl nofun, empty_acc_fits, State.runFits_of_notBusy rfl⟩

theorem turn_holds_inv {s : State} (inv : s.Inv) : s.turn.Holds State.Inv := by
  have ⟨⟨hin, hout, hbefore⟩, err, acc, _⟩ := inv
  unfold State.turn
  cases s.inputs with
  | nil => exact State.engineTurn_holds inv
  | cons action rest =>
    cases action with
    | engine => exact State.engineTurn_holds inv
    | read => exact inv
    | write =>
      exact State.portWrite_holds inv (fun _ => inv)
        (fun notBusy => ⟨⟨hin, hout, hbefore⟩, err, acc, State.runFits_of_notBusy notBusy⟩)
    | provideIn =>
      exact State.provide_holds fun notBusy _ hm =>
        ⟨⟨hm, hout, hbefore⟩, err, acc, State.runFits_of_notBusy notBusy⟩
    | provideOut =>
      exact State.provide_holds fun notBusy _ hm =>
        ⟨⟨hin, hm, hbefore⟩, err, acc, State.runFits_of_notBusy notBusy⟩
    | readOut => exact State.hostReadOut_holds fun _ _ => inv
    | wait =>
      dsimp only
      split
      · exact inv
      · exact State.engineTurn_holds inv
    | reset => exact State.rst_inv ⟨hin, hout, hbefore⟩

/-- Settles O52: the turn hands on a state that meets the invariant, and each way in which an
instruction answers keeps its four parts. -/
theorem stepKeepsInvariant : Obligations.StepKeepsInvariant :=
  fun _ _ inv h => step_gives (turn_holds_inv inv) (fun _ _ _ => exec_keeps_inv) h

end Sys2Proof.Machine
end

section
/-! # The spaces: who writes them, what is provided, and their canonical form -/

namespace Sys2Proof.Machine

/-! ## The writers of OUT -/

/-- An answer that changes OUT comes from one of the four writing steps, by a store at `OUT:OPOS`. -/
theorem ExecNext.store_of_outMem_ne {i : Instr} {s t : State} (h : ExecNext i s t)
    (changed : t.outMem ≠ s.outMem) :
    i ∈ [Instr.encEmit, .encFlush, .encTerm, .decEmit] ∧
      ∃ u, s.outMem.write s.opos.toNat u = some t.outMem := by
  cases h with
  | encEmit _ store | encFlush _ _ _ _ store | encTerm _ _ _ store | decEmit _ store =>
    exact ⟨by simp, _, store⟩
  | _ => exact absurd rfl changed

/-- Settles O42: a unit that reads differently means that OUT changed, so a store at OPOS was made, and
that store leaves every other unit. -/
theorem outWriters : Obligations.OutWriters := by
  intro i s t j h differs
  obtain ⟨writer, u, store⟩ :=
    (execNext_of_exec h).store_of_outMem_ne fun same => differs (by rw [same])
  exact ⟨Classical.not_not.mp fun other => differs (Memory.read_write_other store other), writer⟩

/-- In a run each store is made below CAP (20_memory.md R70). -/
theorem ExecNext.opos_lt_cap {i : Instr} {s t : State} (h : ExecNext i s t) (inv : s.Inv)
    (changed : t.outMem ≠ s.outMem) : s.opos.toNat < s.cap.toNat := by
  cases h with
  | encEmit emit =>
    obtain ⟨op, mode, -⟩ := emit
    obtain ⟨hi, -, -, fits⟩ := inv.encRun op (State.busy_of_emitting mode)
    exact fits.opos_lt_cap hi
  | encFlush mode | encTerm mode =>
    obtain ⟨hi, -, -, fits⟩ := inv.encRun mode.1 (State.busy_of_accumulating mode.2)
    exact fits.opos_lt_cap hi
  | decEmit emit =>
    obtain ⟨op, mode, whole⟩ := emit
    obtain ⟨hi, -, -, fits⟩ := inv.decRun op (State.busy_of_emitting mode)
    exact fits.opos_lt_cap hi whole
  | _ => exact absurd rfl changed

theorem exec_keeps_above_cap {i : Instr} {s t : State} {j : Nat} (inv : s.Inv)
    (h : exec i s = .next t) (above : s.cap.toNat ≤ j) : t.outMem.read j = s.outMem.read j := by
  by_contra differs
  have at_opos := (outWriters i s t j h differs).1
  have below := (execNext_of_exec h).opos_lt_cap inv fun same => differs (by rw [same])
  omega

/-- All that a step can do: its turn ends the event, or runs an instruction. -/
theorem step_eq_next {s t : State} :
    step s = .next t ↔
      s.turn = .done t ∨ ∃ i u, s.turn = .run i u ∧ exec i u = .next t := by
  unfold step
  cases s.turn <;> simp

theorem step_eq_refused_of_turn {s : State} {r : Refusal} (h : s.turn = .refuse r) :
    step s = .refused r := by
  simp [step, h]

/-- The engine's instruction runs on the state as it is. -/
theorem State.eq_of_engineTurn_eq_run {s u : State} {i : Instr} (h : s.engineTurn = .run i u) :
    u = s := by
  unfold State.engineTurn at h
  split at h
  · split at h <;> cases h
    rfl
  · cases h

theorem State.eq_of_portWrite_eq_run {s u : State} {i : Instr} {n : Nat} {data : LenWord}
    (h : s.portWrite n data = .run i u) : u = s := by
  unfold State.portWrite at h
  split at h <;> cases h
  rfl

theorem State.provide_ne_run {s u : State} {i : Instr} {units : List Byte} {pad : Nat}
    {place : State → Memory → State} : s.provide units pad place ≠ .run i u := by
  unfold State.provide
  split
  · nofun
  · split <;> nofun

theorem State.hostReadOut_ne_run {s u : State} {i : Instr} {j : Nat} :
    s.hostReadOut j ≠ .run i u := by
  unfold State.hostReadOut
  split
  · nofun
  · split <;> nofun

/-- An instruction runs on the state as it is, but for the host's action taken. -/
theorem State.eq_of_turn_eq_run {s u : State} {i : Instr} (h : s.turn = .run i u) :
    u = { s with inputs := u.inputs } := by
  unfold State.turn at h
  cases hin : s.inputs with
  | nil => rw [hin] at h; cases State.eq_of_engineTurn_eq_run h; rfl
  | cons action rest =>
    rw [hin] at h
    cases action with
    | engine => cases State.eq_of_engineTurn_eq_run h; rfl
    | write => cases State.eq_of_portWrite_eq_run h; rfl
    | provideIn | provideOut => exact (State.provide_ne_run h).elim
    | readOut => exact (State.hostReadOut_ne_run h).elim
    | wait =>
      dsimp only at h
      split at h
      · cases h
      · cases State.eq_of_engineTurn_eq_run h; rfl
    | read | reset => cases h

/-- No host action but providing OUT touches it; an instruction is still to run. -/
theorem turn_holds_outMem {s : State}
    (notProvided : ∀ units pad rest, s.inputs ≠ .provideOut units pad :: rest) :
    s.turn.Holds fun u => u.outMem = s.outMem := by
  unfold State.turn
  cases hin : s.inputs with
  | nil => exact State.engineTurn_holds rfl
  | cons action rest =>
    cases action with
    | engine => exact State.engineTurn_holds rfl
    | read | reset => rfl
    | write => exact State.portWrite_holds rfl (fun _ => rfl) (fun _ => rfl)
    | provideIn => exact State.provide_holds fun _ _ _ => rfl
    | provideOut units pad => exact absurd hin (notProvided units pad rest)
    | readOut => exact State.hostReadOut_holds fun _ _ => rfl
    | wait =>
      dsimp only
      split
      · rfl
      · exact State.engineTurn_holds rfl

/-- Settles O48: a turn that ends the event leaves OUT, and an instruction that writes OUT does so
below CAP. -/
theorem noWriteAtOrAboveCap : Obligations.NoWriteAtOrAboveCap := by
  intro s t inv notProvided h j above
  obtain done | ⟨i, u, run, hexec⟩ := step_eq_next.mp h
  · have same := turn_holds_outMem notProvided
    rw [done] at same
    exact congrArg (Memory.read · j) same
  · rw [State.eq_of_turn_eq_run run] at hexec
    exact exec_keeps_above_cap (s := { s with inputs := u.inputs }) inv hexec above

/-! ## Launches -/

/-- The command and the START step are the same acceptance (44_control.md R192). -/
theorem exec_encode_of_notBusy {s : State} {i : Instr} (notBusy : s.busy = false)
    (form : i ∈ [Instr.encode, .encStart s.ctl]) : exec i s = encStartBody (s.accept .encode) := by
  obtain rfl | rfl : i = .encode ∨ i = .encStart s.ctl := by simpa using form
  · exact State.onCommand_notBusy notBusy
  · exact if_pos ⟨rfl, notBusy⟩

theorem exec_decode_of_notBusy {s : State} {i : Instr} (notBusy : s.busy = false)
    (form : i ∈ [Instr.decode, .decStart s.ctl]) : exec i s = decStartBody (s.accept .decode) := by
  obtain rfl | rfl : i = .decode ∨ i = .decStart s.ctl := by simpa using form
  · exact State.onCommand_notBusy notBusy
  · exact if_pos ⟨rfl, notBusy⟩

theorem encStartBody_inputTooShort {s : State} (h : s.inMem.size < s.len.toNat) :
    encStartBody s = .refused .launchInputTooShort := if_pos h

theorem encStartBody_outputTooShort {s : State} (hin : s.len.toNat ≤ s.inMem.size)
    (h : s.outMem.size < s.cap.toNat) : encStartBody s = .refused .launchOutputTooShort := by
  simp [encStartBody, Nat.not_lt_of_le hin, h]

/-- Premise P3 fails when IN holds no 0x00. -/
theorem Memory.firstTerm_eq_none {m : Memory} (h : ∀ z, m.read z ≠ some Config.term) :
    m.firstTerm = none :=
  Option.eq_none_iff_forall_ne_some.mpr fun z hz => h z (Memory.firstTerm_eq_some.mp hz).1

/-- All that the length of a DECODE can be refused for: premise P2 or P3 (20_memory.md R64). -/
theorem effectiveLength_eq_error {s : State} {r : Refusal} :
    effectiveLength s = .error r ↔
      (lenNegative s.len = true ∧ s.inMem.firstTerm = none ∧ r = .launchNoTerminator) ∨
      (lenNegative s.len = false ∧ s.inMem.size < s.len.toNat ∧ r = .launchInputTooShort) := by
  unfold effectiveLength
  cases hn : lenNegative s.len
  · by_cases h : s.inMem.size < s.len.toNat <;> simp [h, eq_comm]
  · cases hz : s.inMem.firstTerm <;> simp [eq_comm]

theorem decStartBody_of_error {s : State} {r : Refusal} (h : effectiveLength s = .error r) :
    decStartBody s = .refused r := by
  simp [decStartBody, h]

theorem decStartBody_outputTooShort {s : State} {l : LenWord} (hl : effectiveLength s = .ok l)
    (h : s.outMem.size < s.cap.toNat) : decStartBody s = .refused .launchOutputTooShort := by
  simp [decStartBody, hl, h]

/-- Settles O44: in a not-busy state both forms are the acceptance, which refuses each failing premise. -/
theorem illegalLaunchRefused : Obligations.IllegalLaunchRefused := by
  intro s notBusy
  refine ⟨fun i form => ?_, fun i form => ?_⟩
  · rw [exec_encode_of_notBusy notBusy form]
    exact ⟨fun short => encStartBody_inputTooShort short,
      fun fits short => encStartBody_outputTooShort fits short⟩
  · rw [exec_decode_of_notBusy notBusy form]
    refine ⟨fun nonneg short => ?_, fun neg noTerm => ?_, fun short => ?_⟩
    · have hn : lenNegative s.len = false := by
        rw [← Bool.not_eq_true, lenNegative_iff]
        exact Nat.not_le_of_lt nonneg
      exact decStartBody_of_error (effectiveLength_eq_error.mpr (.inr ⟨hn, short, rfl⟩))
    · exact decStartBody_of_error (effectiveLength_eq_error.mpr
        (.inl ⟨lenNegative_iff _ |>.mpr neg, Memory.firstTerm_eq_none noTerm, rfl⟩))
    · cases hl : effectiveLength (s.accept .decode) with
      | ok l => exact ⟨_, decStartBody_outputTooShort hl short, by simp⟩
      | error r =>
        refine ⟨r, decStartBody_of_error hl, ?_⟩
        obtain ⟨-, -, rfl⟩ | ⟨-, -, rfl⟩ := effectiveLength_eq_error.mp hl <;> simp

/-! ## Provided spaces and the canonical form -/

/-- Listed from index `k` up, a unit is read back, and an index after them is unlisted. -/
theorem lookupCell_cellsOfUnits (units : List Byte) (k i : Nat) :
    lookupCell (cellsOfUnits k units) (k + i) = units[i]?.getD Memory.unlisted := by
  induction units generalizing k i with
  | nil => rfl
  | cons u rest ih =>
    rw [cellsOfUnits, lookupCell_consCell]
    cases i with
    | zero =>
      have below : lookupCell (cellsOfUnits (k + 1) rest) k = Memory.unlisted :=
        lookupCell_below (cellsWf_cellsOfUnits rest (k + 1) (Nat.le_refl _)) (Nat.lt_succ_self k)
      split <;> simp_all
    | succ i =>
      have tail := ih (k + 1) i
      rw [Nat.succ_add_eq_add_succ] at tail
      simpa using tail

theorem Memory.read_ofUnits {units : List Byte} {pad i : Nat} (h : i < units.length + pad) :
    (Memory.ofUnits units pad).read i = some (units[i]?.getD Memory.unlisted) := by
  have listed := lookupCell_cellsOfUnits units 0 i
  rw [Nat.zero_add] at listed
  exact Memory.read_eq_some.mpr ⟨h, listed⟩

theorem Memory.ofUnits_provides {units : List Byte} {pad : Nat}
    (h : units.length + pad ≤ 2 ^ Config.lenW) : (Memory.ofUnits units pad).Provides units pad := by
  refine ⟨Memory.ofUnits_wf h, fun i hi => ?_, fun i hi hpad => ?_, fun i hi => ?_⟩
  · simp [Memory.read_ofUnits (Nat.lt_add_right pad hi), hi]
  · simp [Memory.read_ofUnits hpad, hi, Memory.unlisted]
  · exact if_neg (Nat.not_lt_of_le hi)

theorem State.provide_busy {s : State} {units : List Byte} {pad : Nat}
    {place : State → Memory → State} (h : s.busy = true) :
    s.provide units pad place = .refuse .hostTouchedSpaceWhileBusy := if_pos h

theorem State.provide_notBusy {s : State} {units : List Byte} {pad : Nat}
    {place : State → Memory → State} (h : s.busy = false)
    (size : units.length + pad ≤ 2 ^ Config.lenW) :
    s.provide units pad place = .done (place s (Memory.ofUnits units pad)) := by
  simp only [State.provide, h, Nat.not_lt_of_le size, if_false, Bool.false_eq_true]

/-- A step whose turn is the host providing a space: refused while busy, else the space is placed. -/
theorem step_of_provide {s u : State} {units : List Byte} {pad : Nat}
    {place : State → Memory → State} (turn : s.turn = u.provide units pad place) :
    (u.busy = true → step s = .refused .hostTouchedSpaceWhileBusy) ∧
    (u.busy = false → units.length + pad ≤ 2 ^ Config.lenW →
      ∃ m : Memory, step s = .next (place u m) ∧ m.Provides units pad) :=
  ⟨fun busy => step_eq_refused_of_turn (turn.trans (State.provide_busy busy)),
    fun notBusy size => ⟨Memory.ofUnits units pad,
      step_eq_next.mpr (.inl (turn.trans (State.provide_notBusy notBusy size))),
      Memory.ofUnits_provides size⟩⟩

/-- Settles O45: IN and OUT are provided alike, and the space provided reads as the units given. -/
theorem providedUnits : Obligations.ProvidedUnits := by
  intro s units pad rest
  constructor <;> intro inputs
  · exact step_of_provide (u := { s with inputs := rest }) (place := fun t m => { t with inMem := m })
      (by rw [State.turn, inputs])
  · exact step_of_provide (u := { s with inputs := rest }) (place := fun t m => { t with outMem := m })
      (by rw [State.turn, inputs])

@[simp] theorem lookupCell_head (a : Nat) (u : Byte) (rest : List Host.Cell) :
    lookupCell ((a, u) :: rest) a = u := if_pos rfl

/-- Where two lists of cells read alike, the head of the one is not below the head of the other: an
index below the head is unlisted, and the head itself is listed. -/
theorem head_le_of_lookup_eq {size lo lo' a b : Nat} {u v : Byte} {rest rest' : List Host.Cell}
    (w : cellsWf size lo ((a, u) :: rest) = true) (w' : cellsWf size lo' ((b, v) :: rest') = true)
    (alike : ∀ i < size, lookupCell ((a, u) :: rest) i = lookupCell ((b, v) :: rest') i) :
    b ≤ a := by
  obtain ⟨-, ha, listed, -⟩ := cellsWf_cons.mp w
  obtain ⟨-, hb⟩ := cellsWf_cons.mp w'
  by_contra lt
  have unlisted : lookupCell ((b, v) :: rest') a = Memory.unlisted :=
    lookupCell_below (cellsWf_cons.mpr ⟨Nat.le_refl b, hb⟩) (Nat.lt_of_not_le lt)
  exact listed ((lookupCell_head a u rest).symm.trans ((alike a ha).trans unlisted))

theorem cells_ext {size lo lo' : Nat} {cells cells' : List Host.Cell}
    (w : cellsWf size lo cells = true) (w' : cellsWf size lo' cells' = true)
    (alike : ∀ i < size, lookupCell cells i = lookupCell cells' i) : cells = cells' := by
  induction cells generalizing lo lo' cells' with
  | nil =>
    cases cells' with
    | nil => rfl
    | cons c' rest' =>
      obtain ⟨b, v⟩ := c'
      obtain ⟨-, hb, listed, -⟩ := cellsWf_cons.mp w'
      exact (listed ((lookupCell_head b v rest').symm.trans (alike b hb).symm)).elim
  | cons c rest ih =>
    obtain ⟨a, u⟩ := c
    obtain ⟨-, ha, listed, wrest⟩ := cellsWf_cons.mp w
    cases cells' with
    | nil => exact (listed ((lookupCell_head a u rest).symm.trans (alike a ha))).elim
    | cons c' rest' =>
      obtain ⟨b, v⟩ := c'
      obtain ⟨-, -, -, wrest'⟩ := cellsWf_cons.mp w'
      obtain rfl : a = b := Nat.le_antisymm
        (head_le_of_lookup_eq w' w fun i hi => (alike i hi).symm) (head_le_of_lookup_eq w w' alike)
      obtain rfl : u = v := by simpa using alike a ha
      have tails : ∀ i < size, lookupCell rest i = lookupCell rest' i := fun i hi => by
        by_cases h : a = i
        · subst h
          rw [lookupCell_below wrest (Nat.lt_succ_self a), lookupCell_below wrest' (Nat.lt_succ_self a)]
        · simpa [lookupCell, h] using alike i hi
      rw [ih wrest wrest' tails]

/-- Settles O47: below the size the reads are the lookups, which determine the listed cells. -/
theorem canonicalSpacesAreExtensional : Obligations.CanonicalSpacesAreExtensional := by
  rintro ⟨size, cells⟩ ⟨size', cells'⟩ w w' rfl alike
  obtain ⟨-, wc⟩ := Memory.wf_iff.mp w
  obtain ⟨-, wc'⟩ := Memory.wf_iff.mp w'
  have lookups : ∀ i < size, lookupCell cells i = lookupCell cells' i := fun i hi => by
    simpa [Memory.read, hi] using alike i
  exact congrArg (Memory.mk size) (cells_ext wc wc' lookups)

/-! ## Host reads of OUT -/

/-- A unit zero-extended to the port's width keeps its number. -/
theorem toNat_setWidth_of_byte (u : Byte) : (u.setWidth (Config.lenW + 1)).toNat = u.toNat :=
  BitVec.toNat_setWidth_of_le (by decide)

theorem State.hostReadOut_notBusy {s : State} {j : Nat} {now : Byte} (notBusy : s.busy = false)
    (hread : s.outMem.read j = some now) :
    s.hostReadOut j = .done { s with rdata := now.setWidth _ } := by
  simp [State.hostReadOut, hread, notBusy]

/-- While busy a host read sees the present unit, or the one of acceptance where there was one. -/
theorem State.hostReadOut_busy {s : State} {j : Nat} {now : Byte} (busy : s.busy = true)
    (hread : s.outMem.read j = some now) :
    ∃ seen : Byte, s.hostReadOut j =
        .done { s with rdata := seen.setWidth _, freeCount := s.freeCount + 1 } ∧
      (seen = now ∨ s.outBefore.read j = some seen) := by
  cases free : Config.readOutSeesNew s.freeCount
  · cases before : s.outBefore.read j with
    | none => exact ⟨now, by simp [State.hostReadOut, hread, busy, free, before], .inl rfl⟩
    | some old => exact ⟨old, by simp [State.hostReadOut, hread, busy, free, before], .inr rfl⟩
  · exact ⟨now, by simp [State.hostReadOut, hread, busy, free], .inl rfl⟩

/-- Settles O46: the two branches of the host read, busy or not; while busy for either value of the free
choice. -/
theorem hostReadOfOut : Obligations.HostReadOfOut := by
  intro s j now rest inputs hread
  have turn : s.turn = ({ s with inputs := rest } : State).hostReadOut j := by
    rw [State.turn, inputs]
  cases hb : s.busy
  · exact ⟨_, _, step_eq_next.mpr (.inl (turn.trans (State.hostReadOut_notBusy hb hread))),
      fun _ => toNat_setWidth_of_byte now, nofun⟩
  · obtain ⟨seen, read, choice⟩ :=
      State.hostReadOut_busy (s := { s with inputs := rest }) hb hread
    refine ⟨_, _, step_eq_next.mpr (.inl (turn.trans read)), nofun, fun _ => ?_⟩
    rw [toNat_setWidth_of_byte]
    exact choice.imp (congrArg BitVec.toNat) fun before => ⟨seen, before, rfl⟩

end Sys2Proof.Machine
end

section
/-! # The encoding: the alphabet, the classes of units, and the words of each format -/

namespace Sys2Proof

/-! ## The alphabet tables -/

@[simp] theorem valueOf_charOf (v : Sym) : valueOf (charOf v) = some v := by
  revert v; decide

@[simp] theorem isWhitespace_charOf (v : Sym) : isWhitespace (charOf v) = false := by
  revert v; decide

theorem charOf_of_valueOf {c : Byte} {v : Sym} (h : valueOf c = some v) : charOf v = c := by
  have table : ∀ c : Byte, (valueOf c).all (charOf · == c) = true := by decide
  simpa [h] using table c

theorem decLut_charOf (v : Sym) : decLut (charOf v) = 0#1 ++ v := by
  revert v; decide

theorem decLut_of_valueOf_eq_none {c : Byte} (h : valueOf c = none) : decLut c = 1#1 ++ (0 : Sym) := by
  revert c; decide

/-- Settles O6, entry by entry of the table's 64. -/
theorem charOfTable : Obligations.CharOfTable := by
  unfold Obligations.CharOfTable
  decide

/-- Settles O7: a unit that is the character of no value has no value, so its entry is the invalid one. -/
theorem decLutEntries : Obligations.DecLutEntries := by
  intro c
  refine ⟨fun v hc => hc ▸ decLut_charOf v, fun noChar => ?_⟩
  have noValue : valueOf c = none :=
    Option.eq_none_iff_forall_ne_some.mpr fun v hv => noChar v (charOf_of_valueOf hv).symm
  exact decLut_of_valueOf_eq_none noValue

/-! ## The classes of units -/

@[simp] theorem decodeUnit_code (w : Whitespace) : decodeUnit w.code = .decWs w := by
  cases w <;> rfl

@[simp] theorem decodeUnit_charOf (v : Sym) : decodeUnit (charOf v) = .decSym v := by
  simp [decodeUnit]

theorem isInvalidUnit_iff {c : Byte} :
    isInvalidUnit c = true ↔ isWhitespace c = false ∧ valueOf c = none := by
  simp [isInvalidUnit]

theorem decodeUnit_of_isInvalidUnit {c : Byte} (h : isInvalidUnit c = true) :
    decodeUnit c = .decInv c := by
  obtain ⟨notSpace, noValue⟩ := isInvalidUnit_iff.mp h
  simp [decodeUnit, notSpace, noValue]

theorem decodeUnit_wellFormed (c : Byte) : (decodeUnit c).wellFormed = true := by
  unfold decodeUnit
  split
  · rfl
  · next notSpace =>
    split
    · rfl
    · next noValue => exact isInvalidUnit_iff.mpr ⟨by simpa using notSpace, noValue⟩

theorem r105Whitespace_iff {c : Byte} : r105Whitespace c ↔ ∃ w : Whitespace, w.code = c := by
  constructor
  · intro h
    obtain h | h | h | h : c.toNat = 0x09 ∨ c.toNat = 0x0A ∨ c.toNat = 0x0D ∨ c.toNat = 0x20 := by
      simpa [r105Whitespace] using h
    · exact ⟨.tab, BitVec.eq_of_toNat_eq h.symm⟩
    · exact ⟨.newline, BitVec.eq_of_toNat_eq h.symm⟩
    · exact ⟨.carriageReturn, BitVec.eq_of_toNat_eq h.symm⟩
    · exact ⟨.space, BitVec.eq_of_toNat_eq h.symm⟩
  · rintro ⟨w, rfl⟩
    cases w <;> decide

theorem r105Alphabet_iff {c : Byte} : r105Alphabet c ↔ ∃ v, c = charOf v := by
  constructor
  · intro h
    have hasValue : (valueOf c).isSome = true := by revert c; decide
    obtain ⟨v, hv⟩ := Option.isSome_iff_exists.mp hasValue
    exact ⟨v, (charOf_of_valueOf hv).symm⟩
  · rintro ⟨v, rfl⟩
    revert v; decide

theorem r105Invalid_iff {c : Byte} : r105Invalid c ↔ isInvalidUnit c = true := by
  revert c; decide

/-- The ranges of R105 exclude each other and leave no unit out. -/
theorem r105_partition (c : Byte) :
    r105Whitespace c ∧ ¬ r105Alphabet c ∧ ¬ r105Invalid c ∨
      ¬ r105Whitespace c ∧ r105Alphabet c ∧ ¬ r105Invalid c ∨
      ¬ r105Whitespace c ∧ ¬ r105Alphabet c ∧ r105Invalid c := by
  simp only [r105Whitespace, List.mem_cons, List.not_mem_nil, or_false]
  omega

/-! ## STEP words -/

@[simp] theorem opOfCode_code (op : Op) : opOfCode op.code = op := by cases op <;> rfl

@[simp] theorem ctlOfCode_code (st : CtlState) : ctlOfCode st.code = some st := by cases st <;> rfl

@[simp] theorem stepBits_op (op : Op) (st : CtlState) :
    (stepBits op st).extractLsb' 3 2 = op.code := BitVec.extractLsb'_append_eq_left

@[simp] theorem stepBits_state (op : Op) (st : CtlState) :
    (stepBits op st).setWidth 3 = st.code := BitVec.setWidth_append_eq_right

/-- The two fields of a STEP word are read back (30_encoding.md R107). -/
@[simp] theorem decode_stepBits (op : Op) (st : CtlState) (k : StepCond) :
    decode (.step (stepBits op st) k) = decodeStep op st k := by
  simp [decode]

@[simp] theorem decode_stepWord (op : Op) (st : CtlState) (more bitsLeft : Bool) :
    decode (stepWord op st more bitsLeft) = decodeStep op st ⟨more, bitsLeft, none⟩ :=
  decode_stepBits op st _

theorem stepBits_toNat (op : Op) (st : CtlState) :
    (stepBits op st).toNat = op.code.toNat * 2 ^ 3 + st.code.toNat :=
  (BitVec.toNat_append ..).trans (Machine.or_shift_toNat st.code.isLt)

theorem stepBits_toNat_div (op : Op) (st : CtlState) :
    (stepBits op st).toNat / 8 = op.code.toNat := by
  have := st.code.isLt
  rw [stepBits_toNat]
  omega

theorem stepBits_toNat_mod (op : Op) (st : CtlState) :
    (stepBits op st).toNat % 8 = st.code.toNat := by
  have := st.code.isLt
  rw [stepBits_toNat]
  omega

theorem stepBits_inj {op op' : Op} {st st' : CtlState} :
    stepBits op st = stepBits op' st' ↔ op = op' ∧ st = st' := by
  refine ⟨fun same => ⟨?_, ?_⟩, fun ⟨hop, hst⟩ => hop ▸ hst ▸ rfl⟩
  · simpa using congrArg (fun bits => opOfCode (bits.extractLsb' 3 2)) same
  · simpa using congrArg (fun bits => ctlOfCode (bits.setWidth 3)) same

/-- The bits of the decode pass, a DECODE in Accumulating. -/
theorem decodePass_bits : (0b11001 : BitVec 5) = stepBits .decode .accumulating := rfl

theorem CtlState.code_lt (st : CtlState) : st.code.toNat < 5 := by cases st <;> decide

theorem Op.code_lt_two {op : Op} : op.code.toNat < 2 ↔ op = .minlen ∨ op = .maxlen := by
  cases op <;> decide

theorem ctlOfCode_eq_none {b : BitVec 3} : ctlOfCode b = none ↔ 5 ≤ b.toNat := by
  revert b; decide

/-- A STEP word has a reserved STATE code, or is the word of an OP and a STATE. -/
theorem reserved_or_stepBits (bits : BitVec 5) :
    ctlOfCode (bits.setWidth 3) = none ∨ ∃ op st, bits = stepBits op st := by
  have table : ∀ bits : BitVec 5, ∀ st ∈ ctlOfCode (bits.setWidth 3),
      bits = stepBits (opOfCode (bits.extractLsb' 3 2)) st := by decide
  cases h : ctlOfCode (bits.setWidth 3) with
  | none => exact .inl rfl
  | some st => exact .inr ⟨_, st, table bits st h⟩

/-- The rows of the step dispatch that are none (30_encoding.md R106). -/
theorem decodeStep_eq_error {op : Op} {st : CtlState} {k : StepCond} :
    (∃ e, decodeStep op st k = .error e) ↔
      op = .minlen ∨ op = .maxlen ∨
        op = .decode ∧ st = .accumulating ∧ k.more = true ∧ k.unit = none := by
  cases op with
  | minlen | maxlen => simp [decodeStep]
  | encode =>
    cases st with
    | accumulating => cases hm : k.more <;> cases hb : k.bitsLeft <;> simp [decodeStep, hm, hb]
    | _ => simp [decodeStep]
  | decode =>
    cases st with
    | accumulating => cases hm : k.more <;> cases hu : k.unit <;> simp [decodeStep, hm, hu]
    | _ => simp [decodeStep]

theorem decodeStep_wellFormed {op : Op} {st : CtlState} {k : StepCond} {i : Instr}
    (h : decodeStep op st k = .ok i) : i.wellFormed = true := by
  cases op with
  | minlen | maxlen => cases h
  | encode =>
    cases st with
    | accumulating =>
      simp only [decodeStep] at h
      split at h
      · cases h; rfl
      · split at h <;> cases h <;> rfl
    | _ => cases h; rfl
  | decode =>
    cases st with
    | accumulating =>
      simp only [decodeStep] at h
      split at h
      · split at h <;> cases h
        exact decodeUnit_wellFormed _
      · cases h; rfl
    | _ => cases h; rfl

/-- A STEP word is rejected for a reserved STATE, or its OP and STATE name a row that is missing. -/
theorem decode_step_eq_error {bits : BitVec 5} {k : StepCond} :
    (∃ e, decode (.step bits k) = .error e) ↔
      5 ≤ bits.toNat % 8 ∨ bits.toNat / 8 < 2 ∨
        bits = 0b11001 ∧ k.more = true ∧ k.unit = none := by
  obtain reserved | ⟨op, st, rfl⟩ := reserved_or_stepBits bits
  · have code : 5 ≤ bits.toNat % 8 := by simpa using ctlOfCode_eq_none.mp reserved
    simp [decode, reserved, code]
  · have defined : ¬ 5 ≤ (stepBits op st).toNat % 8 :=
      stepBits_toNat_mod op st ▸ Nat.not_le_of_lt st.code_lt
    rw [decode_stepBits, decodeStep_eq_error, stepBits_toNat_div, Op.code_lt_two, decodePass_bits,
      stepBits_inj]
    simp only [defined, false_or, or_assoc, and_assoc]

/-! ## The decoder as a whole -/

/-- Settles O1: the commands and the values are their own rows, a DECODE class is the row of its unit,
and the fields of a STEP word are read back. -/
theorem decodeOfEncode : Obligations.DecodeOfEncode := by
  intro i wf
  cases i with
  | minlen | maxlen | encode | decode | encSym => rfl
  | encByte | encEmit | encFlush | encTerm | decEmit | decEnd => exact decode_stepWord ..
  | encStart st | decStart st =>
    cases st with
    | idle | done | failed => exact decode_stepWord ..
    | accumulating | emitting => cases wf
  | decWs w => exact congrArg Except.ok (decodeUnit_code w)
  | decSym v => exact congrArg Except.ok (decodeUnit_charOf v)
  | decInv c => exact congrArg Except.ok (decodeUnit_of_isInvalidUnit wf)

theorem decodeCmd_wellFormed (op : BitVec 2) : (decodeCmd op).wellFormed = true := by
  unfold decodeCmd
  split <;> rfl

/-- Settles O2, format by format. -/
theorem decodedIsWellFormed : Obligations.DecodedIsWellFormed := by
  intro w i h
  cases w with
  | cmd op => cases h; exact decodeCmd_wellFormed op
  | dchar c => cases h; exact decodeUnit_wellFormed c
  | eval v => cases h; rfl
  | step bits k =>
    simp only [decode] at h
    split at h
    · exact decodeStep_wellFormed h
    · cases h

/-- Settles O3: the maps of the other three formats are full, and the rejected STEP words are listed. -/
theorem rejectedWords : Obligations.RejectedWords := by
  intro w
  cases w with
  | cmd op | dchar c | eval v => simp [decode]
  | step bits k =>
    rw [decode_step_eq_error]
    exact ⟨fun h => ⟨bits, k, rfl, h⟩, fun ⟨_, _, same, h⟩ => by cases same; exact h⟩

/-- Settles O4: each class is that of its micro-step's operand, and the pass decodes the unit as a DCHAR
word does. -/
theorem unitClasses : Obligations.UnitClasses := by
  refine ⟨fun c => ⟨fun space => ?_, fun letter => ?_, fun invalid => ?_, r105_partition c, ?_⟩,
    by decide +kernel, by decide +kernel, by decide +kernel⟩
  · obtain ⟨w, rfl⟩ := r105Whitespace_iff.mp space
    exact ⟨w, congrArg Except.ok (decodeUnit_code w), rfl⟩
  · obtain ⟨v, rfl⟩ := r105Alphabet_iff.mp letter
    exact ⟨v, congrArg Except.ok (decodeUnit_charOf v), valueOf_charOf v⟩
  · exact congrArg Except.ok (decodeUnit_of_isInvalidUnit (r105Invalid_iff.mp invalid))
  · intro k more unit
    rw [decodePass_bits, decode_stepBits]
    simp [decodeStep, decode, more, unit]

/-- Settles O5, by running the decoder on each word. -/
theorem sampleWordsDecode : Obligations.SampleWordsDecode := by
  unfold Obligations.SampleWordsDecode
  decide

end Sys2Proof
end

section
/-! # Which instruction a step runs: the host's command, the engine's dispatch, and WAIT -/

namespace Sys2Proof.Machine

/-! ## A turn that runs an instruction -/

theorem step_of_turn_eq_run {s u : State} {i : Instr} (h : s.turn = .run i u) :
    step s = exec i u := by
  simp [step, h]

/-- While busy the engine's turn is the instruction of its STEP word (44_control.md R195). -/
theorem State.engineTurn_of_decode {s : State} {i : Instr} (busy : s.busy = true)
    (h : decode s.engineWord = .ok i) : s.engineTurn = .run i s := by
  simp [State.engineTurn, busy, h]

theorem State.turn_of_no_inputs {s : State} (h : s.inputs = []) : s.turn = s.engineTurn := by
  simp [State.turn, h]

theorem State.turn_of_engine {s : State} {rest : List HostAction} (h : s.inputs = .engine :: rest) :
    s.turn = ({ s with inputs := rest } : State).engineTurn := by
  simp [State.turn, h]

theorem State.turn_of_wait {s : State} {rest : List HostAction} (h : s.inputs = .wait :: rest)
    (notDone : s.ctl ≠ .done) (notFailed : s.ctl ≠ .failed) : s.turn = s.engineTurn := by
  simp [State.turn, h, notDone, notFailed]

theorem State.turn_of_wait_ended {s : State} {rest : List HostAction} (h : s.inputs = .wait :: rest)
    (ended : s.ctl = .done ∨ s.ctl = .failed) :
    s.turn = .done { s with inputs := rest, rdata := s.portRead 3 } := by
  simp [State.turn, h, ended]

theorem State.turn_of_cmd {s : State} {data : LenWord} {rest : List HostAction}
    (h : s.inputs = .write 0 data :: rest) :
    s.turn = .run (decodeCmd (data.setWidth 2)) { s with inputs := rest } := by
  simp [State.turn, h, State.portWrite]

theorem State.ctl_ne_of_busy {s : State} (busy : s.busy = true) :
    s.ctl ≠ .idle ∧ s.ctl ≠ .done ∧ s.ctl ≠ .failed := by
  refine ⟨?_, ?_, ?_⟩ <;> intro h <;> simp [State.busy, h, CtlState.busy] at busy

/-- Settles O30: the host's write to CMD is the run of the decoded command; in the other cases the turn
is the engine's. -/
theorem stepRunsPresentedWord : Obligations.StepRunsPresentedWord := by
  refine fun s i => ⟨fun data rest inputs h => ?_, fun busy h => ⟨fun inputs => ?_,
    fun rest inputs => ?_, fun rest inputs => ?_⟩⟩
  · cases h
    exact step_of_turn_eq_run (State.turn_of_cmd inputs)
  · exact step_of_turn_eq_run
      ((State.turn_of_no_inputs inputs).trans (State.engineTurn_of_decode busy h))
  · obtain ⟨-, notDone, notFailed⟩ := State.ctl_ne_of_busy busy
    exact step_of_turn_eq_run
      ((State.turn_of_wait inputs notDone notFailed).trans (State.engineTurn_of_decode busy h))
  · exact step_of_turn_eq_run ((State.turn_of_engine inputs).trans
      (State.engineTurn_of_decode (s := { s with inputs := rest }) busy h))

/-! ## The dispatch table -/

/-- The STEP word of the engine is the dispatch on OP, STATE and the conditions (30_encoding.md R106). -/
theorem decode_engineWord (s : State) :
    decode s.engineWord = decodeStep s.op s.ctl
      { more := decide (s.ipos.toNat < s.tlen.toNat), bitsLeft := decide (0 < s.nbits.toNat),
        unit := s.unitAtIpos } :=
  decode_stepBits ..

theorem step_of_engineWord {s : State} {i : Instr} (inputs : s.inputs = []) (busy : s.busy = true)
    (h : decode s.engineWord = .ok i) : step s = exec i s :=
  ((stepRunsPresentedWord s i).2 busy h).1 inputs

/-- In the decode pass the unit at the cursor is decoded as a DCHAR word. -/
theorem decode_engineWord_of_atUnit {s : State} {c : Byte} (h : s.atUnit c) :
    decode s.engineWord = .ok (decodeUnit c) := by
  obtain ⟨⟨op, ctl⟩, more, unit⟩ := h
  simp [decode_engineWord, decodeStep, op, ctl, more, unit]

/-- Settles O31: in each row the engine's STEP word decodes to the row's micro-step. -/
theorem stepDispatch : Obligations.StepDispatch := by
  intro s inputs
  refine ⟨fun op ctl more => ?_, fun op ctl last left => ?_, fun op ctl last empty => ?_,
    fun op ctl => ?_, fun c op ctl more unit => ?_, fun op ctl last => ?_, fun op ctl => ?_⟩
  · refine step_of_engineWord inputs (State.busy_of_accumulating ctl) ?_
    simp [decode_engineWord, decodeStep, op, ctl, more]
  · refine step_of_engineWord inputs (State.busy_of_accumulating ctl) ?_
    have bits : 0 < s.nbits.toNat :=
      Nat.pos_of_ne_zero fun zero => left (BitVec.eq_of_toNat_eq zero)
    simp [decode_engineWord, decodeStep, op, ctl, last, bits]
  · refine step_of_engineWord inputs (State.busy_of_accumulating ctl) ?_
    simp [decode_engineWord, decodeStep, op, ctl, last, empty]
  · refine step_of_engineWord inputs (State.busy_of_emitting ctl) ?_
    simp [decode_engineWord, decodeStep, op, ctl]
  · have row : step s = exec (decodeUnit c) s :=
      step_of_engineWord inputs (State.busy_of_accumulating ctl)
        (decode_engineWord_of_atUnit ⟨⟨op, ctl⟩, more, unit⟩)
    refine ⟨fun space => ?_, fun v hc => ?_, fun invalid => ?_⟩
    · obtain ⟨w, rfl⟩ := r105Whitespace_iff.mp space
      exact ⟨w, rfl, decodeUnit_code w ▸ row⟩
    · subst hc
      exact decodeUnit_charOf v ▸ row
    · exact decodeUnit_of_isInvalidUnit (r105Invalid_iff.mp invalid) ▸ row
  · refine step_of_engineWord inputs (State.busy_of_accumulating ctl) ?_
    simp [decode_engineWord, decodeStep, op, ctl, last]
  · refine step_of_engineWord inputs (State.busy_of_emitting ctl) ?_
    simp [decode_engineWord, decodeStep, op, ctl]

/-! ## WAIT -/

/-- STATUS as the port reads it (10_state.md R24). -/
theorem State.portRead_status_toNat (s : State) :
    (s.portRead 3).toNat = 8 * s.err.code.toNat + s.ctl.code.toNat :=
  calc (s.portRead 3).toNat
    _ = s.statusWord.toNat := BitVec.toNat_setWidth_of_le (by decide)
    _ = s.err.code.toNat * 2 ^ 3 + s.ctl.code.toNat :=
      (BitVec.toNat_append ..).trans (or_shift_toNat s.ctl.code.isLt)
    _ = 8 * s.err.code.toNat + s.ctl.code.toNat := by omega

/-- No instruction takes a host action. -/
theorem ExecNext.keeps_inputs {i : Instr} {s t : State} (h : ExecNext i s t) :
    t.inputs = s.inputs := by
  cases h <;> rfl

/-- A step that is the engine's turn leaves the host's actions. -/
theorem step_keeps_inputs_of_engineTurn {s t : State} (turn : s.turn = s.engineTurn)
    (h : step s = .next t) : t.inputs = s.inputs :=
  step_gives (p := fun u => u.inputs = s.inputs) (turn ▸ State.engineTurn_holds rfl)
    (fun _ _ _ kept hexec => (execNext_of_exec hexec).keeps_inputs.trans kept) h

/-- Settles O51: in Done and Failed the turn is the read of STATUS, else it is the engine's, which in
Idle changes nothing. -/
theorem waitPollsStatus : Obligations.WaitPollsStatus := by
  intro s rest inputs
  refine ⟨fun ended => ?_, fun busy => ⟨fun i h => ?_, fun t h => ?_⟩, fun idle => ?_⟩
  · exact ⟨_, step_eq_next.mpr (.inl (State.turn_of_wait_ended inputs ended)),
      s.portRead_status_toNat⟩
  · exact ((stepRunsPresentedWord s i).2 busy h).2.1 rest inputs
  · obtain ⟨-, notDone, notFailed⟩ := State.ctl_ne_of_busy busy
    exact step_keeps_inputs_of_engineTurn (State.turn_of_wait inputs notDone notFailed) h
  · have turn : s.turn = s.engineTurn := State.turn_of_wait inputs (by simp [idle]) (by simp [idle])
    have rests : s.engineTurn = .done s := by
      simp [State.engineTurn, State.busy, idle, CtlState.busy]
    exact step_eq_next.mpr (.inl (turn.trans rests))

end Sys2Proof.Machine
end

section
/-! # The alphabet: a bijection, the order of classification, and the lookup -/

namespace Sys2Proof

/-! ## The bijection -/

theorem valueOf_eq_some_iff {c : Byte} {v : Sym} : valueOf c = some v ↔ c = charOf v :=
  ⟨fun hv => (charOf_of_valueOf hv).symm, fun hc => hc ▸ valueOf_charOf v⟩

theorem charOf_injective : Function.Injective charOf := fun v _ same =>
  Option.some.inj ((valueOf_charOf v).symm.trans (valueOf_eq_some_iff.mpr same))

theorem charOf_ne_zero (v : Sym) : charOf v ≠ 0x00 := by
  intro zero
  have noValue : valueOf 0x00 = none := by decide
  simp [← zero] at noValue

/-- Settles O8: `charOf` has the left inverse `valueOf`, which has a value for nothing but characters. -/
theorem alphabetBijection : Obligations.AlphabetBijection := by
  refine ⟨valueOf_charOf, fun c => ?_, fun _ _ => charOf_of_valueOf, charOf_injective,
    fun v => ⟨isWhitespace_charOf v, charOf_ne_zero v⟩⟩
  simp only [Option.ne_none_iff_exists', valueOf_eq_some_iff]

/-! ## The order of classification -/

theorem code_whitespaceOf {c : Byte} (space : isWhitespace c = true) : (whitespaceOf c).code = c := by
  revert c; decide

theorem decodeUnit_of_isWhitespace {c : Byte} (space : isWhitespace c = true) :
    decodeUnit c = .decWs (whitespaceOf c) := by
  simp [decodeUnit, space]

/-- A unit with a value is an alphabet character, and none of those is whitespace. -/
theorem valueOf_of_isWhitespace {c : Byte} (space : isWhitespace c = true) : valueOf c = none := by
  refine Option.eq_none_iff_forall_ne_some.mpr fun v hv => ?_
  obtain rfl := valueOf_eq_some_iff.mp hv
  simp at space

/-- Settles O9: a unit that is not whitespace is the character of its value, or is an invalid unit. -/
theorem classificationOrder : Obligations.ClassificationOrder := by
  intro c
  refine ⟨fun space => ⟨⟨whitespaceOf c, ?_, ?_⟩, ?_⟩, fun _ v hv => ?_, fun notSpace noValue => ?_⟩
  · exact decodeUnit_of_isWhitespace space
  · exact code_whitespaceOf space
  · exact valueOf_of_isWhitespace space
  · exact valueOf_eq_some_iff.mp hv ▸ decodeUnit_charOf v
  · exact decodeUnit_of_isInvalidUnit (isInvalidUnit_iff.mpr ⟨notSpace, noValue⟩)

end Sys2Proof

namespace Sys2Proof.Machine

/-! ## The lookup -/

theorem exec_encSym (v : Sym) (s : State) : exec (.encSym v) s = .next (s.lookupChar v) := rfl

/-- Settles O10: the unit looked up is `charOf v`. -/
theorem lookupCompletes : Obligations.LookupCompletes := fun s v =>
  ⟨charOf v, exec_encSym v s, valueOf_charOf v⟩

end Sys2Proof.Machine
end

section
/-! # The size functions, and MINLEN and MAXLEN

The two rounding rules are the only facts that look inside the size functions; every law follows from
them. -/

namespace Sys2Proof.Machine

/-! ## The size functions -/

/-- 41_size_functions.md R130: up to whole 6-bit groups, and one unit for the terminator. -/
theorem minEncodedLength_rounds_up (n : Nat) :
    8 * n ≤ 6 * (minEncodedLength n - 1) ∧ 6 * (minEncodedLength n - 1) < 8 * n + 6 ∧
      1 ≤ minEncodedLength n := by
  simp only [minEncodedLength, Nat.add_sub_cancel]
  omega

/-- 41_size_functions.md R131: down to whole bytes. -/
theorem maxDecodedLength_rounds_down (n : Nat) :
    8 * maxDecodedLength n ≤ 6 * n ∧ 6 * n < 8 * maxDecodedLength n + 8 := by
  unfold maxDecodedLength
  omega

/-- The groups of `n` bytes hold `n` bytes and less than one more. -/
theorem maxDecodedLength_minEncodedLength_pred (n : Nat) :
    maxDecodedLength (minEncodedLength n - 1) = n := by
  have groups := minEncodedLength_rounds_up n
  have bytes := maxDecodedLength_rounds_down (minEncodedLength n - 1)
  omega

/-- A further byte needs a further group. -/
theorem minEncodedLength_strictMono : StrictMono minEncodedLength := by
  intro n n' less
  have groups := minEncodedLength_rounds_up n
  have groups' := minEncodedLength_rounds_up n'
  omega

theorem maxDecodedLength_monotone : Monotone maxDecodedLength := by
  intro n n' le
  have bytes := maxDecodedLength_rounds_down n
  have bytes' := maxDecodedLength_rounds_down n'
  omega

/-- Settles O11: the two roundings give the laws. -/
theorem sizeFunctionLaws : Obligations.SizeFunctionLaws :=
  ⟨minEncodedLength_rounds_up, maxDecodedLength_rounds_down, maxDecodedLength_minEncodedLength_pred,
    fun _ _ less => minEncodedLength_strictMono less, fun _ _ le => maxDecodedLength_monotone le,
    rfl, rfl⟩

/-- 41_size_functions.md R134 (b): one bit more than the length has is enough. -/
theorem minEncodedLength_lt_two_pow {w n : Nat} (h : n < 2 ^ w) :
    minEncodedLength n < 2 ^ (w + 1) := by
  have groups := minEncodedLength_rounds_up n
  calc minEncodedLength n
    _ ≤ 2 * n + 1 := by omega
    _ < 2 * 2 ^ w := by omega
    _ = 2 ^ (w + 1) := Nat.pow_succ'.symm

theorem maxDecodedLength_le (n : Nat) : maxDecodedLength n ≤ n := by
  have bytes := maxDecodedLength_rounds_down n
  omega

/-- Settles O12: the bounds hold even of the widths below 2. -/
theorem sizeResultsFit : Obligations.SizeResultsFit := by
  intro w n _ h
  obtain ⟨-, -, pos⟩ := minEncodedLength_rounds_up n
  exact ⟨pos, Nat.le_pred_of_lt (minEncodedLength_lt_two_pow h), maxDecodedLength_le n⟩

/-! ## The two commands -/

/-- Both commands write OP, ERR, RESULT and STATE and nothing else; a result of the width of RESULT is
written exactly (41_size_functions.md R132, R133). -/
theorem State.accept_finishSize (s : State) (o : Op) {n : Nat} (fits : n < 2 ^ (Config.lenW + 1)) :
    ∃ r : ResWord, r.toNat = n ∧
      (s.accept o).finishSize n = { s with op := o, err := .ok, result := r, ctl := .done } :=
  ⟨BitVec.ofNat _ n, (BitVec.toNat_ofNat n _).trans (Nat.mod_eq_of_lt fits), rfl⟩

theorem exec_minlen_of_busy {s : State} (busy : s.busy = true) : exec .minlen s = .next s :=
  execMinlen_eq_next.mpr (.inl ⟨busy, rfl⟩)

theorem exec_minlen_of_notBusy {s : State} (notBusy : s.busy = false) :
    exec .minlen s = .next ((s.accept .minlen).finishSize (minEncodedLength s.len.toNat)) :=
  execMinlen_eq_next.mpr (.inr ⟨notBusy, rfl⟩)

theorem exec_maxlen_of_busy {s : State} (busy : s.busy = true) : exec .maxlen s = .next s :=
  execMaxlen_eq_next.mpr (.inl ⟨busy, rfl⟩)

theorem exec_maxlen_of_notBusy {s : State} (notBusy : s.busy = false) :
    exec .maxlen s = .next ((s.accept .maxlen).finishSize (maxDecodedLength s.len.toNat)) :=
  execMaxlen_eq_next.mpr (.inr ⟨notBusy, rfl⟩)

/-- Settles O13: the result of a length fits RESULT, which has one bit more than LEN. -/
theorem minlenResult : Obligations.MinlenResult := by
  refine fun s => ⟨fun notBusy => ?_, exec_minlen_of_busy⟩
  obtain ⟨r, value, writes⟩ :=
    s.accept_finishSize .minlen (minEncodedLength_lt_two_pow s.len.isLt)
  exact ⟨r, value, writes ▸ exec_minlen_of_notBusy notBusy⟩

/-- Settles O14: the result is at most LEN, so it fits RESULT. -/
theorem maxlenResult : Obligations.MaxlenResult := by
  refine fun s => ⟨fun notBusy => ?_, exec_maxlen_of_busy⟩
  have fits : maxDecodedLength s.len.toNat < 2 ^ (Config.lenW + 1) :=
    calc maxDecodedLength s.len.toNat
      _ ≤ s.len.toNat := maxDecodedLength_le _
      _ < 2 ^ Config.lenW := s.len.isLt
      _ ≤ 2 ^ (Config.lenW + 1) := Nat.pow_le_pow_right (by decide) (Nat.le_succ _)
  obtain ⟨r, value, writes⟩ := s.accept_finishSize .maxlen fits
  exact ⟨r, value, writes ▸ exec_maxlen_of_notBusy notBusy⟩

end Sys2Proof.Machine
end

section
/-! # ENCODE: what each micro-step does

A store inside OUT is made and changes one unit; each effect is then the inversion lemma of its
micro-step read backwards. -/

namespace Sys2Proof.Machine

/-- A store below the provided size is made, and changes that unit only (20_memory.md R63). -/
theorem Memory.exists_write {m : Memory} {j : Nat} (u : Byte) (inside : j < m.size)
    (wf : m.wf = true) : ∃ m', m.write j u = some m' ∧ m.Stores m' j u := by
  have store : m.write j u = some { m with cells := putCell m.cells j u } :=
    Memory.write_eq_some.mpr ⟨inside, rfl⟩
  exact ⟨_, store, rfl, Memory.read_write_same store wf, fun _ => Memory.read_write_other store⟩

/-- 42_encode.md R143 for any accumulator: what does not fit twelve bits is cut off. -/
theorem shiftInByte_toNat_mod (acc : AccWord) (b : Byte) :
    (shiftInByte acc b).toNat = (acc.toNat * 256 + b.toNat) % 2 ^ 12 := by
  have hb : b.toNat < 2 ^ 8 := b.isLt
  have cut : acc.toNat <<< 8 % 2 ^ 12 = (acc.toNat % 16) <<< 8 := by
    simp only [Nat.shiftLeft_eq]; omega
  simp only [shiftInByte, BitVec.toNat_or, BitVec.toNat_shiftLeft, BitVec.toNat_setWidth]
  rw [cut, Nat.mod_eq_of_lt (by omega : b.toNat < 2 ^ 12), or_shift_toNat hb]
  omega

/-- Bits shifted up to the top of a value are not cut (42_encode.md R145). -/
theorem shift_to_top_lt {a n : Nat} (h : a < 2 ^ n) (few : n ≤ 6) : a * 2 ^ (6 - n) < 64 :=
  calc a * 2 ^ (6 - n)
    _ < 2 ^ n * 2 ^ (6 - n) := Nat.mul_lt_mul_of_pos_right h (Nat.two_pow_pos _)
    _ = 64 := by rw [← Nat.pow_add, Nat.add_sub_cancel' few]

theorem nbits_eq_six {n : NbWord} : n = 6 ↔ n.toNat = 6 := BitVec.toNat_eq

theorem nbits_eq_twelve {n : NbWord} : n = 12 ↔ n.toNat = 12 := BitVec.toNat_eq

/-- Settles O15: both forms are the acceptance, which on a legal launch fails on the capacity or
starts the run. -/
theorem encodeStarts : Obligations.EncodeStarts := by
  intro s notBusy ⟨hin, hout⟩
  rw [exec_encode_of_notBusy (i := .encode) notBusy (by simp),
    exec_encode_of_notBusy (i := .encStart s.ctl) notBusy (by simp)]
  by_cases short : s.cap.toNat < minEncodedLength s.len.toNat
  · have fails := encStartBody_eq_next (s := s.accept .encode).mpr ⟨hin, hout, .inl ⟨short, rfl⟩⟩
    exact ⟨_, fails, fails, fun _ => rfl, fun room => absurd short (Nat.not_lt_of_le room)⟩
  · have room := Nat.le_of_not_lt short
    have starts := encStartBody_eq_next (s := s.accept .encode).mpr ⟨hin, hout, .inr ⟨room, rfl⟩⟩
    exact ⟨_, starts, starts, fun h => absurd h short, fun _ => rfl⟩

/-- Settles O16: with at most four valid bits the byte fits beside them. -/
theorem encByteEffect : Obligations.EncByteEffect := by
  intro s b mode more few unit
  refine ⟨_, _, _, execEncByte_eq_next.mpr ⟨⟨mode, more, few⟩, b, unit, rfl⟩,
    shiftInByte_toNat_mod s.acc b, nbits_add_eight (by omega), succ_toNat more, fun fits even => ?_⟩
  have most : s.nbits.toNat ≤ 4 := by
    simp only [List.mem_cons, List.not_mem_nil, or_false] at even; omega
  have small : s.acc.toNat < 2 ^ 4 :=
    Nat.lt_of_lt_of_le fits (Nat.pow_le_pow_right (by decide) most)
  exact ⟨shiftInByte_toNat b small, shiftInByte_lt b fits most⟩

/-- While emitting, the valid bits are a multiple of six exactly after every third byte: they are
the bits taken in that no character has taken out. -/
theorem State.Inv.nbits_of_emitting {s : State} (inv : s.Inv) (emit : s.encEmitting) :
    s.nbits = 12 ∨ s.nbits = 6 ↔ s.ipos.toNat % 3 = 0 := by
  obtain ⟨op, mode, whole⟩ := emit
  obtain ⟨-, -, -, fits⟩ := inv.encRun op (State.busy_of_emitting mode)
  have bits := fits.bits_eq (.inr fun empty => by simp [empty] at whole)
  obtain ⟨-, -, ready, -⟩ := State.encFits_iff.mp fits
  obtain ⟨even, -, most⟩ := ready mode
  rw [nbits_eq_twelve, nbits_eq_six]
  omega

/-- Settles O17: the store is inside OUT, and from at most twelve valid bits at most six remain. -/
theorem encEmitEffect : Obligations.EncEmitEffect := by
  intro s emit inside wf
  have ⟨_, _, whole⟩ := emit
  obtain ⟨m, store, stores⟩ :=
    Memory.exists_write (charOf (topSym s.acc s.nbits)) inside wf
  have n : (s.nbits - 6).toNat = s.nbits.toNat - 6 := nbits_sub_six whole
  refine ⟨m, _, topSym s.acc s.nbits, _, _, _,
    execEncEmit_eq_next.mpr ⟨emit, m, store, rfl⟩, stores, topSym_toNat _ _, n,
    maskValid_toNat _ _, ctlByCount_eq_emitting.mpr, ctlByCount_eq_accumulating.mpr,
    fun ⟨_, most⟩ => ⟨by omega, ?_⟩, fun inv => inv.nbits_of_emitting emit⟩
  rw [ctlByCount_eq_emitting, n, nbits_eq_twelve]
  omega

/-- The bits left after the last byte, two for each byte of an incomplete group of three. -/
theorem State.Inv.nbits_of_last {s : State} (inv : s.Inv) (mode : s.encAccumulating)
    (last : s.ipos = s.tlen) (left : 0 < s.nbits.toNat) :
    s.nbits.toNat = 2 ∧ s.tlen.toNat % 3 = 1 ∨ s.nbits.toNat = 4 ∧ s.tlen.toNat % 3 = 2 := by
  obtain ⟨-, -, -, fits⟩ := inv.encRun mode.1 (State.busy_of_accumulating mode.2)
  have bits := fits.bits_eq (.inr fun empty => by simp [empty] at left)
  obtain ⟨-, few, -, -⟩ := State.encFits_iff.mp fits
  obtain ⟨even, most⟩ := few mode.2
  rw [last] at bits
  omega

/-- Settles O18: the store is inside OUT, and with no bits left the next micro-step is ENC.TERM. -/
theorem encFlushEffect : Obligations.EncFlushEffect := by
  intro s mode last left few inside wf
  obtain ⟨m, store, stores⟩ :=
    Memory.exists_write (charOf (flushSym s.acc s.nbits)) inside wf
  have value := flushSym_toNat s.acc s.nbits
  refine ⟨m, _, flushSym s.acc s.nbits, _,
    execEncFlush_eq_next.mpr ⟨⟨mode, last, left, few⟩, m, store, rfl⟩, rfl, stores, value,
    fun fits => ?_, fun inputs => ?_, fun inv => inv.nbits_of_last mode last left⟩
  · exact value.trans (Nat.mod_eq_of_lt (shift_to_top_lt fits (Nat.le_of_lt few)))
  · obtain ⟨-, -, term, -⟩ := stepDispatch _ inputs
    exact term mode.1 rfl last rfl

/-- Settles O19: the store is inside OUT. -/
theorem encTermEffect : Obligations.EncTermEffect := by
  intro s mode last empty inside wf
  obtain ⟨m, store, stores⟩ := Memory.exists_write Config.term inside wf
  exact ⟨m, execEncTerm_eq_next.mpr ⟨⟨mode, last, empty⟩, m, store, rfl⟩, stores⟩

end Sys2Proof.Machine
end

section
/-! # A whole ENCODE computes the reference text

First the bit lists of the reference, then the accumulator as a bit list, then OUT as a text written
over what it held; `EncodeAt` joins them into what holds at each state of a run, and every
micro-step brings the run one step nearer to its end. -/

namespace Sys2Proof.Machine

/-! ## Bit lists -/

@[simp] theorem bitsValue_nil : bitsValue [] = 0 := rfl

@[simp] theorem bitsValue_concat (bits : List Bool) (b : Bool) :
    bitsValue (bits ++ [b]) = 2 * bitsValue bits + b.toNat := by
  simp [bitsValue]

theorem bitsValue_append (bits low : List Bool) :
    bitsValue (bits ++ low) = bitsValue bits * 2 ^ low.length + bitsValue low := by
  induction low using List.reverseRecOn with
  | nil => simp
  | append_singleton low b ih =>
    rw [← List.append_assoc, bitsValue_concat, bitsValue_concat, ih, List.length_append,
      List.length_singleton, Nat.pow_succ]
    ring

theorem bitsValue_lt (bits : List Bool) : bitsValue bits < 2 ^ bits.length := by
  induction bits using List.reverseRecOn with
  | nil => simp
  | append_singleton bits b ih =>
    rw [bitsValue_concat, List.length_append, List.length_singleton, Nat.pow_succ]
    have := b.toNat_le
    omega

theorem bitsValue_zeros (n : Nat) : bitsValue (List.replicate n false) = 0 := by
  induction n with
  | zero => rfl
  | succ n ih => rw [List.replicate_succ', bitsValue_concat, ih]; rfl

@[simp] theorem length_unitBits (b : Byte) : (unitBits b).length = 8 := rfl

@[simp] theorem length_symBits (v : Sym) : (symBits v).length = 6 := rfl

theorem bitsValue_unitBits (b : Byte) : bitsValue (unitBits b) = b.toNat := by
  revert b; decide

theorem bitsValue_symBits (v : Sym) : bitsValue (symBits v) = v.toNat := by
  revert v; decide

/-- Six bits are the bits of their value. -/
theorem eq_symBits {bits : List Bool} {v : Sym} (length : bits.length = 6)
    (value : bitsValue bits = v.toNat) : bits = symBits v := by
  have six : ∀ b5 b4 b3 b2 b1 b0 : Bool,
      symBits (BitVec.ofNat 6 (bitsValue [b5, b4, b3, b2, b1, b0])) = [b5, b4, b3, b2, b1, b0] := by
    decide
  match bits, length with
  | [b5, b4, b3, b2, b1, b0], _ =>
    rw [← six b5 b4 b3 b2 b1 b0, value, BitVec.ofNat_toNat, BitVec.setWidth_eq]

theorem cutSyms_symBits_append (v : Sym) (bits : List Bool) :
    cutSyms (symBits v ++ bits) = v :: cutSyms bits := by
  have value : BitVec.ofNat 6 (bitsValue (symBits v)) = v := by
    rw [bitsValue_symBits, BitVec.ofNat_toNat, BitVec.setWidth_eq]
  exact congrArg (· :: cutSyms bits) value

theorem cutSyms_flatMap_symBits (vals : List Sym) : cutSyms (vals.flatMap symBits) = vals := by
  induction vals with
  | nil => rfl
  | cons v vals ih => rw [List.flatMap_cons, cutSyms_symBits_append, ih]

theorem length_flatMap_symBits (vals : List Sym) :
    (vals.flatMap symBits).length = 6 * vals.length := by
  simp [List.length_flatMap, Nat.mul_comm]

theorem length_flatMap_unitBits (bytes : List Byte) :
    (bytes.flatMap unitBits).length = 8 * bytes.length := by
  simp [List.length_flatMap, Nat.mul_comm]

/-! ## Bytes taken in, values written, bits left -/

/-- The bits of `bytes`, with at most the zeros that fill up a last group, are those of the values
written, then the bits left (42_encode.md R141). -/
def Encodes (bytes : List Byte) (vals : List Sym) (left : List Bool) : Prop :=
  ∃ pad < 6, bytes.flatMap unitBits ++ List.replicate pad false = vals.flatMap symBits ++ left

theorem Encodes.nil : Encodes [] [] [] := ⟨0, by decide, rfl⟩

section
variable {bytes : List Byte} {vals : List Sym} {left : List Bool}

theorem padded_length {pad : Nat}
    (bits : bytes.flatMap unitBits ++ List.replicate pad false = vals.flatMap symBits ++ left) :
    8 * bytes.length + pad = 6 * vals.length + left.length := by
  have lengths := congrArg List.length bits
  simpa only [List.length_append, length_flatMap_symBits, length_flatMap_unitBits,
    List.length_replicate] using lengths

/-- Where every bit taken in is written or left, no zeros were added. -/
theorem Encodes.unpadded (h : Encodes bytes vals left)
    (whole : 6 * vals.length + left.length = 8 * bytes.length) :
    bytes.flatMap unitBits = vals.flatMap symBits ++ left := by
  obtain ⟨pad, -, bits⟩ := h
  have lengths := padded_length bits
  obtain rfl : pad = 0 := by omega
  simpa using bits

theorem Encodes.byte (h : Encodes bytes vals left)
    (whole : 6 * vals.length + left.length = 8 * bytes.length) (b : Byte) :
    Encodes (bytes ++ [b]) vals (left ++ unitBits b) :=
  ⟨0, by decide, by simp [h.unpadded whole]⟩

theorem Encodes.emit {v : Sym} (h : Encodes bytes vals (symBits v ++ left)) :
    Encodes bytes (vals ++ [v]) left := by
  obtain ⟨pad, few, bits⟩ := h
  exact ⟨pad, few, by simp [bits]⟩

theorem Encodes.flush {v : Sym} {pad : Nat} (h : Encodes bytes vals left)
    (whole : 6 * vals.length + left.length = 8 * bytes.length) (few : pad < 6)
    (filled : left ++ List.replicate pad false = symBits v) : Encodes bytes (vals ++ [v]) [] :=
  ⟨pad, few, by simp [h.unpadded whole, filled]⟩

/-- With no bits left the zeros are those of the reference, so its values are those written. -/
theorem Encodes.encValues_eq (h : Encodes bytes vals []) : encValues bytes = vals := by
  obtain ⟨pad, few, bits⟩ := h
  have lengths : 8 * bytes.length + pad = 6 * vals.length + 0 := padded_length bits
  rw [List.append_nil] at bits
  have fill : (6 - 8 * bytes.length % 6) % 6 = pad := by omega
  rw [encValues, fill, bits, cutSyms_flatMap_symBits]

end

theorem length_cutSyms (bits : List Bool) : (cutSyms bits).length = bits.length / 6 := by
  induction bits using cutSyms.induct with
  | case1 b5 b4 b3 b2 b1 b0 rest ih =>
    simp only [cutSyms, List.length_cons, ih]
    omega
  | case2 bits short =>
    have few : bits.length < 6 := by
      match bits, short with
      | [], _ | [_], _ | [_, _], _ | [_, _, _], _ | [_, _, _, _], _ | [_, _, _, _, _], _ => simp
      | b5 :: b4 :: b3 :: b2 :: b1 :: b0 :: rest, short =>
        exact (short b5 b4 b3 b2 b1 b0 rest rfl).elim
    rw [cutSyms, List.length_nil, Nat.div_eq_of_lt few]
    exact short

/-- The text of the reference has the length of 41_size_functions.md R130. -/
theorem length_encText (bytes : List Byte) :
    (encText bytes).length = minEncodedLength bytes.length := by
  simp only [encText, encChars, encValues, List.length_append, List.length_map, length_cutSyms,
    length_flatMap_unitBits, List.length_replicate, List.length_singleton, minEncodedLength]
  omega

/-! ## The accumulator as a bit list -/

/-- The `n` valid bits of the accumulator, the most significant first (10_state.md R33). -/
structure ValidBits (acc : AccWord) (n : NbWord) (bits : List Bool) : Prop where
  length : bits.length = n.toNat
  value : bitsValue bits = acc.toNat

section
variable {acc a : AccWord} {n n' : NbWord} {bits : List Bool} {v : Sym}

/-- 42_encode.md R143. -/
theorem ValidBits.byte {b : Byte} (h : ValidBits acc n bits)
    (value : a.toNat = acc.toNat * 256 + b.toNat) (count : n'.toNat = n.toNat + 8) :
    ValidBits a n' (bits ++ unitBits b) := by
  obtain ⟨length, sum⟩ := h
  refine ⟨by rw [List.length_append, length, count, length_unitBits], ?_⟩
  rw [bitsValue_append, bitsValue_unitBits, sum, value, length_unitBits]
  omega

/-- 42_encode.md R144: the slice is the first six bits, the mask keeps the others. -/
theorem ValidBits.emit (h : ValidBits acc n bits) (whole : 6 ≤ n.toNat)
    (value : v.toNat = acc.toNat / 2 ^ (n.toNat - 6) % 64) (count : n'.toNat = n.toNat - 6)
    (masked : a.toNat = acc.toNat % 2 ^ n'.toNat) :
    ∃ rest, bits = symBits v ++ rest ∧ ValidBits a n' rest := by
  obtain ⟨length, sum⟩ := h
  have top_length : (bits.take 6).length = 6 := by simp; omega
  have rest_length : (bits.drop 6).length = n.toNat - 6 := by simp [length]
  have split := bitsValue_append (bits.take 6) (bits.drop 6)
  rw [List.take_append_drop, sum, rest_length] at split
  have top_lt : bitsValue (bits.take 6) < 64 := by
    simpa [top_length] using bitsValue_lt (bits.take 6)
  have rest_lt : bitsValue (bits.drop 6) < 2 ^ (n.toNat - 6) := by
    simpa [rest_length] using bitsValue_lt (bits.drop 6)
  have pos := Nat.two_pow_pos (n.toNat - 6)
  have top : bitsValue (bits.take 6) = v.toNat := by
    rw [value, split, Nat.mul_comm, Nat.mul_add_div pos, Nat.div_eq_of_lt rest_lt, Nat.add_zero,
      Nat.mod_eq_of_lt top_lt]
  have rest : bitsValue (bits.drop 6) = a.toNat := by
    rw [masked, count, split, Nat.mul_add_mod', Nat.mod_eq_of_lt rest_lt]
  exact ⟨bits.drop 6, by rw [← eq_symBits top_length top, List.take_append_drop],
    rest_length.trans count.symm, rest⟩

/-- 42_encode.md R145: the value shifted up is the bits left with zeros below them. -/
theorem ValidBits.flush (h : ValidBits acc n bits) (few : n.toNat < 6)
    (value : v.toNat = acc.toNat * 2 ^ (6 - n.toNat)) :
    bits ++ List.replicate (6 - n.toNat) false = symBits v := by
  obtain ⟨length, sum⟩ := h
  refine eq_symBits (by simp [length]; omega) ?_
  rw [bitsValue_append, bitsValue_zeros, List.length_replicate, sum, value, Nat.add_zero]

end

/-! ## OUT as a text written over what it held -/

/-- The space holds `units` from index 0 up, and above them what it held before. -/
def Memory.HoldsOver (m before : Memory) (units : List Byte) : Prop :=
  ∀ j, m.read j = units[j]?.or (before.read j)

theorem Memory.HoldsOver.nil (m : Memory) : m.HoldsOver m [] := fun _ => rfl

section
variable {m m' before : Memory} {units : List Byte}

/-- A store just above the units written lengthens them. -/
theorem Memory.HoldsOver.append {u : Byte} (h : m.HoldsOver before units)
    (store : m.Stores m' units.length u) : m'.HoldsOver before (units ++ [u]) := by
  obtain ⟨-, here, elsewhere⟩ := store
  intro j
  obtain below | rfl | above := Nat.lt_trichotomy j units.length
  · rw [elsewhere j (Nat.ne_of_lt below), h j, List.getElem?_append_left below]
  · simp [here]
  · rw [elsewhere j (Nat.ne_of_gt above), h j, List.getElem?_eq_none (Nat.le_of_lt above),
      List.getElem?_eq_none (by simpa using above)]

theorem Memory.HoldsOver.read_below {j : Nat} (h : m.HoldsOver before units)
    (below : j < units.length) : m.read j = units[j]? := by
  rw [h j, List.getElem?_eq_getElem below, Option.some_or]

theorem Memory.HoldsOver.read_above {j : Nat} (h : m.HoldsOver before units)
    (above : units.length ≤ j) : m.read j = before.read j := by
  rw [h j, List.getElem?_eq_none above, Option.none_or]

end

/-! ## The run -/

/-- What a run of the ENCODE accepted in `s` leaves from its first state on. -/
def EncodeFrame (s u : State) : Prop :=
  u.op = .encode ∧ u.inputs = [] ∧ u.tlen = s.len ∧ u.inMem = s.inMem ∧ u.len = s.len ∧
    u.cap = s.cap ∧ u.result = s.result

/-- The run of the ENCODE accepted in `s` is at `u`, with `vals` written and the bits `left`
valid. -/
structure EncodeAt (s u : State) (vals : List Sym) (left : List Bool) : Prop where
  inv : u.Inv
  busy : u.busy = true
  frame : EncodeFrame s u
  written : u.opos.toNat = vals.length
  text : u.outMem.HoldsOver s.outMem (vals.map charOf)
  valid : ValidBits u.acc u.nbits left
  bits : Encodes (u.inMem.firstUnits u.ipos.toNat) vals left

/-- The run of the ENCODE accepted in `s` has ended in `t`. -/
structure EncodeEnded (s t : State) : Prop where
  done : t.ctl = .done
  err : t.err = .ok
  frame : EncodeFrame s t
  count : t.count.toNat + 1 = minEncodedLength s.len.toNat
  text : t.outMem.HoldsOver s.outMem (encText (s.inMem.firstUnits s.len.toNat))

/-- The micro-steps a running ENCODE still takes: one for each byte to take in, one for each unit to
write (42_encode.md R147). -/
def State.encodeStepsLeft (u : State) : Nat :=
  (u.tlen.toNat - u.ipos.toNat) + (minEncodedLength u.tlen.toNat - u.opos.toNat)

@[simp] theorem Memory.length_firstUnits (m : Memory) (n : Nat) : (m.firstUnits n).length = n := by
  simp [Memory.firstUnits]

/-- A running ENCODE has at least the terminator still to write. -/
theorem State.encFits.opos_lt_minEncodedLength {s : State} (fits : s.encFits)
    (hi : s.ipos.toNat ≤ s.tlen.toNat) : s.opos.toNat < minEncodedLength s.tlen.toNat := by
  obtain ⟨-, -, -, bits⟩ := fits
  have groups := minEncodedLength_rounds_up s.tlen.toNat
  omega

/-- With nothing left to take in and no bits left, only the terminator is still to write. -/
theorem State.encFits.opos_succ_of_empty {s : State} (fits : s.encFits) (last : s.ipos = s.tlen)
    (empty : s.nbits = 0) : s.opos.toNat + 1 = minEncodedLength s.tlen.toNat := by
  obtain ⟨-, -, -, bits⟩ := fits
  have groups := minEncodedLength_rounds_up s.tlen.toNat
  have zero : s.nbits.toNat = 0 := congrArg BitVec.toNat empty
  rw [last, zero] at bits
  omega

section
variable {s u : State} {vals : List Sym} {left : List Bool}

theorem EncodeAt.encRun (h : EncodeAt s u vals left) :
    u.ipos.toNat ≤ u.tlen.toNat ∧ u.tlen.toNat ≤ u.inMem.size ∧ u.cap.toNat ≤ u.outMem.size ∧
      u.encFits := by
  obtain ⟨op, -⟩ := h.frame
  exact h.inv.encRun op h.busy

theorem EncodeAt.outMem_wf (h : EncodeAt s u vals left) : u.outMem.wf = true := by
  obtain ⟨⟨-, wf, -⟩, -⟩ := h.inv
  exact wf

theorem EncodeAt.acc_lt (h : EncodeAt s u vals left) : u.acc.toNat < 2 ^ u.nbits.toNat := by
  obtain ⟨-, -, ⟨below, -⟩, -⟩ := h.inv
  exact below

/-- The store that is next is inside OUT and below the length of the text. -/
theorem EncodeAt.opos_lt (h : EncodeAt s u vals left) :
    u.opos.toNat < u.outMem.size ∧ u.opos.toNat < minEncodedLength u.tlen.toNat := by
  obtain ⟨hi, -, hout, fits⟩ := h.encRun
  exact ⟨Nat.lt_of_lt_of_le (fits.opos_lt_cap hi) hout, fits.opos_lt_minEncodedLength hi⟩

theorem EncodeAt.opos_succ (h : EncodeAt s u vals left) :
    (u.opos + 1).toNat = u.opos.toNat + 1 := by
  obtain ⟨hi, -, -, fits⟩ := h.encRun
  exact succ_toNat (fits.opos_lt_cap hi)

theorem EncodeAt.encodeStepsLeft_pos (h : EncodeAt s u vals left) : 0 < u.encodeStepsLeft := by
  obtain ⟨-, below⟩ := h.opos_lt
  unfold State.encodeStepsLeft
  omega

/-- While bits are valid or bytes remain, every bit taken in is written or left. -/
theorem EncodeAt.whole (h : EncodeAt s u vals left) (unfinished : u.ipos ≠ u.tlen ∨ u.nbits ≠ 0) :
    6 * vals.length + left.length = 8 * (u.inMem.firstUnits u.ipos.toNat).length := by
  obtain ⟨-, -, -, fits⟩ := h.encRun
  rw [← h.written, h.valid.length, Memory.length_firstUnits]
  exact fits.bits_eq unfinished

theorem EncodeAt.written_append (h : EncodeAt s u vals left) (v : Sym) :
    (u.opos + 1).toNat = (vals ++ [v]).length := by
  rw [h.opos_succ, h.written, List.length_append, List.length_singleton]

/-- The text grows by the character stored. -/
theorem EncodeAt.text_append {m : Memory} {v : Sym} (h : EncodeAt s u vals left)
    (store : u.outMem.Stores m u.opos.toNat (charOf v)) :
    m.HoldsOver s.outMem ((vals ++ [v]).map charOf) := by
  rw [h.written, ← List.length_map charOf] at store
  simpa using h.text.append store

/-- One micro-step of a run that does not end it. -/
def EncodeAdvances (s u : State) : Prop :=
  ∃ u' vals left, step u = .next u' ∧ EncodeAt s u' vals left ∧
    u'.encodeStepsLeft + 1 = u.encodeStepsLeft

theorem EncodeAt.encByte_advances (h : EncodeAt s u vals left) (mode : u.ctl = .accumulating)
    (more : u.ipos.toNat < u.tlen.toNat) : EncodeAdvances s u := by
  have ⟨op, inputs, _⟩ := h.frame
  obtain ⟨-, hin, -, fits⟩ := h.encRun
  obtain ⟨-, few, -, -⟩ := fits
  have unit : u.inMem.read u.ipos.toNat = some (lookupCell u.inMem.cells u.ipos.toNat) :=
    Memory.read_eq_some.mpr ⟨Nat.lt_of_lt_of_le more hin, rfl⟩
  have below : u.nbits.toNat < 6 := by
    have := few mode
    simp only [List.mem_cons, List.not_mem_nil, or_false] at this
    omega
  obtain ⟨a, n, p, runs, -, count, cursor, uncut⟩ :=
    encByteEffect u _ ⟨op, mode⟩ more below unit
  obtain ⟨value, -⟩ := uncut h.acc_lt (few mode)
  obtain ⟨dispatch, -⟩ := stepDispatch u inputs
  have steps := (dispatch op mode more).trans runs
  refine ⟨_, vals, _, steps, {
    inv := stepKeepsInvariant _ _ h.inv steps
    busy := rfl
    frame := h.frame
    written := h.written
    text := h.text
    valid := h.valid.byte value count
    bits := ?_ }, ?_⟩
  · simp only [cursor, Memory.firstUnits_succ unit]
    exact h.bits.byte (h.whole (.inl fun e => by simp [e] at more)) _
  · simp only [State.encodeStepsLeft, cursor]
    omega

theorem EncodeAt.encEmit_advances (h : EncodeAt s u vals left) (mode : u.ctl = .emitting) :
    EncodeAdvances s u := by
  have ⟨op, inputs, _⟩ := h.frame
  have ⟨inside, below⟩ := h.opos_lt
  obtain ⟨-, -, -, fits⟩ := h.encRun
  obtain ⟨-, -, ready, -⟩ := State.encFits_iff.mp fits
  obtain ⟨-, whole, -⟩ := ready mode
  obtain ⟨m, c, v, a, n, st, runs, store, value, count, masked, more, fewer, -⟩ :=
    encEmitEffect u ⟨op, mode, whole⟩ inside h.outMem_wf
  obtain ⟨rest, rfl, valid⟩ := h.valid.emit whole value count masked
  obtain ⟨-, -, -, dispatch, -⟩ := stepDispatch u inputs
  have steps := (dispatch op mode).trans runs
  refine ⟨_, vals ++ [v], rest, steps, {
    inv := stepKeepsInvariant _ _ h.inv steps
    busy := ?_
    frame := h.frame
    written := h.written_append v
    text := h.text_append store
    valid := valid
    bits := h.bits.emit }, ?_⟩
  · obtain under | again := Nat.lt_or_ge n.toNat 6
    · exact State.busy_of_accumulating (fewer under)
    · exact State.busy_of_emitting (more again)
  · simp only [State.encodeStepsLeft, h.opos_succ]
    omega

theorem EncodeAt.encFlush_advances (h : EncodeAt s u vals left) (mode : u.ctl = .accumulating)
    (last : u.ipos = u.tlen) (remain : u.nbits ≠ 0) : EncodeAdvances s u := by
  have ⟨op, inputs, _⟩ := h.frame
  have ⟨inside, below⟩ := h.opos_lt
  have pos : 0 < u.nbits.toNat := Nat.pos_of_ne_zero fun zero => remain (BitVec.eq_of_toNat_eq zero)
  have few : u.nbits.toNat < 6 := by
    have := h.inv.nbits_of_last ⟨op, mode⟩ last pos
    omega
  obtain ⟨m, c, v, t, runs, rfl, store, -, value, -⟩ :=
    encFlushEffect u ⟨op, mode⟩ last pos few inside h.outMem_wf
  obtain ⟨-, dispatch, -⟩ := stepDispatch u inputs
  have steps := (dispatch op mode last remain).trans runs
  refine ⟨_, vals ++ [v], [], steps, {
    inv := stepKeepsInvariant _ _ h.inv steps
    busy := rfl
    frame := h.frame
    written := h.written_append v
    text := h.text_append store
    valid := ⟨rfl, rfl⟩
    bits :=
      h.bits.flush (h.whole (.inr remain)) (by omega) (h.valid.flush few (value h.acc_lt)) }, ?_⟩
  simp only [State.encodeStepsLeft, h.opos_succ]
  omega

/-- ENC.TERM, with nothing left to take in and no bits left, ends the run. -/
theorem EncodeAt.encTerm_ends (h : EncodeAt s u vals left) (mode : u.ctl = .accumulating)
    (last : u.ipos = u.tlen) (empty : u.nbits = 0) :
    (∃ t, step u = .next t ∧ EncodeEnded s t) ∧ u.encodeStepsLeft = 1 := by
  have frame := h.frame
  obtain ⟨op, inputs, tlen, inMem, -⟩ := h.frame
  have ⟨inside, below⟩ := h.opos_lt
  obtain ⟨-, -, -, fits⟩ := h.encRun
  obtain ⟨m, runs, store⟩ := encTermEffect u ⟨op, mode⟩ last empty inside h.outMem_wf
  obtain ⟨-, -, dispatch, -⟩ := stepDispatch u inputs
  have steps := (dispatch op mode last empty).trans runs
  obtain ⟨-, err, -⟩ := stepKeepsInvariant _ _ h.inv steps
  obtain rfl : left = [] := List.eq_nil_of_length_eq_zero (h.valid.length.trans (by simp [empty]))
  have full := fits.opos_succ_of_empty last empty
  have values := h.bits.encValues_eq
  rw [last, tlen, inMem] at values
  rw [h.written, ← List.length_map charOf] at store
  refine ⟨⟨_, steps, {
    done := rfl
    err := err.mpr nofun
    frame := frame
    count := tlen ▸ full
    text := ?_ }⟩, ?_⟩
  · rw [encText, encChars, values]
    exact h.text.append store
  · rw [State.encodeStepsLeft, last]
    omega

/-- What a micro-step of a run does: it is the last, or it brings the run one step nearer to its
end. -/
theorem EncodeAt.ends_or_advances (h : EncodeAt s u vals left) :
    (∃ t, step u = .next t ∧ EncodeEnded s t) ∧ u.encodeStepsLeft = 1 ∨
      EncodeAdvances s u := by
  obtain ⟨hi, -⟩ := h.encRun
  cases mode : u.ctl with
  | emitting => exact .inr (h.encEmit_advances mode)
  | accumulating =>
    by_cases last : u.ipos = u.tlen
    · by_cases empty : u.nbits = 0
      · exact .inl (h.encTerm_ends mode last empty)
      · exact .inr (h.encFlush_advances mode last empty)
    · have more := Nat.lt_of_le_of_ne hi fun same => last (BitVec.eq_of_toNat_eq same)
      exact .inr (h.encByte_advances mode more)
  | idle | done | failed =>
    have := h.busy
    simp [State.busy, mode, CtlState.busy] at this

end

theorem core_run_succ {s u : State} {k : Nat} (h : step s = .next u) :
    core.run (k + 1) s = core.run k u := by
  have : core.step s = .next u := h
  simp only [Host.Core.run, this]

/-- A run takes exactly the steps left, and is busy before the last. -/
theorem EncodeAt.run {s : State} (n : Nat) {u : State} {vals : List Sym} {left : List Bool}
    (h : EncodeAt s u vals left) (steps : u.encodeStepsLeft = n + 1) :
    (∃ t, core.run (n + 1) u = .next t ∧ EncodeEnded s t) ∧
      ∀ k ≤ n, ∃ w, core.run k u = .next w ∧ w.busy = true := by
  induction n generalizing u vals left with
  | zero =>
    obtain ⟨⟨t, last, ended⟩, -⟩ | ⟨u', vals', left', -, h', fewer⟩ := h.ends_or_advances
    · refine ⟨⟨t, core_run_succ last, ended⟩, fun k hk => ?_⟩
      obtain rfl := Nat.le_zero.mp hk
      exact ⟨u, rfl, h.busy⟩
    · have := h'.encodeStepsLeft_pos
      omega
  | succ n ih =>
    obtain ⟨-, one⟩ | ⟨u', vals', left', first, h', fewer⟩ := h.ends_or_advances
    · omega
    · obtain ⟨⟨t, ends, ended⟩, busy⟩ := ih h' (by omega)
      refine ⟨⟨t, (core_run_succ first).trans ends, ended⟩, fun k hk => ?_⟩
      match k with
      | 0 => exact ⟨u, rfl, h.busy⟩
      | k + 1 => rw [core_run_succ first]; exact busy k (Nat.le_of_succ_le_succ hk)

/-- The host's write of 2 to CMD starts the run, at the first of its states. -/
theorem encodeAt_of_command {s : State} (notBusy : s.busy = false) (hin : s.inMem.wf = true)
    (hout : s.outMem.wf = true) (legal : s.encodeLegal)
    (room : minEncodedLength s.len.toNat ≤ s.cap.toNat) (inputs : s.inputs = [.write 0 2]) :
    ∃ u, step s = .next u ∧ EncodeAt s u [] [] ∧
      u.encodeStepsLeft = s.len.toNat + minEncodedLength s.len.toNat := by
  have command : step s = exec .encode { s with inputs := [] } :=
    (stepRunsPresentedWord s .encode).1 2 [] inputs rfl
  obtain ⟨u, runs, -, -, starts⟩ := encodeStarts { s with inputs := [] } notBusy legal
  obtain rfl := starts room
  exact ⟨_, command.trans runs, {
    inv := ⟨⟨hin, hout, hout⟩, iff_of_true rfl nofun, empty_acc_fits, fun _ =>
      ⟨Nat.zero_le _, legal.1, legal.2,
        .inl ⟨rfl, room, fun _ => List.mem_cons_self, nofun, .inl rfl⟩⟩⟩
    busy := rfl
    frame := ⟨rfl, rfl, rfl, rfl, rfl, rfl, rfl⟩
    written := rfl
    text := Memory.HoldsOver.nil _
    valid := ⟨rfl, rfl⟩
    bits := Encodes.nil }, rfl⟩

/-- 42_encode.md R147: the units written are the characters of whole groups, that of a partial
group, and the terminator. -/
theorem minEncodedLength_eq_steps (n : Nat) :
    minEncodedLength n = 8 * n / 6 + (if n % 3 = 0 then 0 else 1) + 1 := by
  unfold minEncodedLength
  obtain rest | rest | rest : n % 3 = 0 ∨ n % 3 = 1 ∨ n % 3 = 2 := by omega
  all_goals
    simp only [rest, if_true, if_false, OfNat.ofNat_ne_zero, one_ne_zero]
    omega

/-- Settles O20: the run starts with nothing written and takes a step for each byte and each unit of
the text; at its end the values written are those of the reference. -/
theorem encodeComputesReference : Obligations.EncodeComputesReference := by
  intro s notBusy hin hout legal room inputs
  obtain ⟨u, first, h, steps⟩ := encodeAt_of_command notBusy hin hout legal room inputs
  obtain ⟨n, hn⟩ := Nat.exists_eq_add_one.mpr h.encodeStepsLeft_pos
  obtain ⟨⟨t, ends, ended⟩, busy⟩ := h.run n hn
  have total : 1 + s.len.toNat + 8 * s.len.toNat / 6 + (if s.len.toNat % 3 = 0 then 0 else 1) + 1 =
      n + 1 + 1 := by
    rw [← hn, steps, minEncodedLength_eq_steps]
    omega
  have length := length_encText (s.inMem.firstUnits s.len.toNat)
  rw [Memory.length_firstUnits] at length
  obtain ⟨op, -, -, inMem, len, cap, result⟩ := ended.frame
  rw [total]
  refine ⟨t, (core_run_succ first).trans ends, fun k one before => ?_, ended.done, ended.err, op,
    ended.count, fun j below => ended.text.read_below (length ▸ below),
    fun j above => ended.text.read_above (length.trans_le above), inMem, len, cap, result⟩
  obtain ⟨k, rfl⟩ := Nat.exists_eq_add_of_le' one
  rw [core_run_succ first]
  exact busy k (by omega)

end Sys2Proof.Machine
end

section
/-! # Decoding the text of any bytes -/

namespace Sys2Proof.Machine

/-! ## Whole groups of bits -/

/-- Bit lists of one length are determined by their value. -/
theorem bitsValue_inj {bits bits' : List Bool} (length : bits.length = bits'.length)
    (value : bitsValue bits = bitsValue bits') : bits = bits' := by
  induction bits using List.reverseRecOn generalizing bits' with
  | nil => exact (List.eq_nil_of_length_eq_zero length.symm).symm
  | append_singleton bits b ih =>
    obtain rfl | ⟨bits', b', rfl⟩ := bits'.eq_nil_or_concat'
    · simp at length
    · simp only [bitsValue_concat, List.length_append, List.length_singleton] at length value
      have bit := b.toNat_le
      have bit' := b'.toNat_le
      have last : b = b' := by cases b <;> cases b' <;> simp at value ⊢ <;> omega
      subst last
      rw [ih (Nat.succ.inj length) (by omega)]

/-- Eight bits are the bits of their value. -/
theorem eq_unitBits {bits : List Bool} {u : Byte} (length : bits.length = 8)
    (value : bitsValue bits = u.toNat) : bits = unitBits u :=
  bitsValue_inj length (value.trans (bitsValue_unitBits u).symm)

theorem cutUnits_unitBits_append (u : Byte) (bits : List Bool) :
    cutUnits (unitBits u ++ bits) = u :: cutUnits bits := by
  have value : BitVec.ofNat 8 (bitsValue (unitBits u)) = u := by
    rw [bitsValue_unitBits, BitVec.ofNat_toNat, BitVec.setWidth_eq]
  exact congrArg (· :: cutUnits bits) value

theorem cutUnits_of_short {bits : List Bool} (short : bits.length < 8) : cutUnits bits = [] := by
  unfold cutUnits
  split
  · simp only [List.length_cons] at short
    omega
  · rfl

/-- Bits that do not complete a byte are dropped (43_decode.md R162). -/
theorem cutUnits_flatMap_unitBits_append (bytes : List Byte) {left : List Bool}
    (short : left.length < 8) : cutUnits (bytes.flatMap unitBits ++ left) = bytes := by
  induction bytes with
  | nil => exact cutUnits_of_short short
  | cons u bytes ih =>
    rw [List.flatMap_cons, List.append_assoc, cutUnits_unitBits_append, ih]

/-- Cut in whole groups of six, no bit is lost. -/
theorem flatMap_symBits_cutSyms (bits : List Bool) (whole : bits.length % 6 = 0) :
    (cutSyms bits).flatMap symBits = bits := by
  induction bits using cutSyms.induct with
  | case1 b5 b4 b3 b2 b1 b0 rest ih =>
    have group : symBits (BitVec.ofNat 6 (bitsValue [b5, b4, b3, b2, b1, b0])) =
        [b5, b4, b3, b2, b1, b0] := by
      refine (eq_symBits rfl ?_).symm
      exact (Nat.mod_eq_of_lt (bitsValue_lt [b5, b4, b3, b2, b1, b0])).symm
    simp only [List.length_cons] at whole
    rw [cutSyms, List.flatMap_cons, group, ih (by omega)]
    rfl
  | case2 bits short =>
    have cut : cutSyms bits = [] := by rw [cutSyms]; exact short
    have groups := length_cutSyms bits
    rw [cut, List.length_nil] at groups
    rw [cut]
    exact (List.eq_nil_of_length_eq_zero (by omega)).symm

/-! ## The units of a text -/

@[simp] theorem isInvalidUnit_charOf (v : Sym) : isInvalidUnit (charOf v) = false := by
  simp [isInvalidUnit]

theorem validPrefix_eq_self_iff {text : List Byte} :
    validPrefix text = text ↔ ∀ c ∈ text, isInvalidUnit c = false := by
  simp [validPrefix, List.takeWhile_eq_self_iff]

theorem textValues_map_charOf (vals : List Sym) : textValues (vals.map charOf) = vals := by
  induction vals with
  | nil => rfl
  | cons v vals ih => simpa [textValues] using ih

/-- The values of the reference carry the bits of the bytes and fewer than a byte of zeros
(42_encode.md R141). -/
theorem flatMap_symBits_encValues (bytes : List Byte) :
    (encValues bytes).flatMap symBits = bytes.flatMap unitBits ++
      List.replicate ((6 - 8 * bytes.length % 6) % 6) false := by
  refine flatMap_symBits_cutSyms _ ?_
  rw [List.length_append, length_flatMap_unitBits, List.length_replicate]
  omega

theorem length_encChars_add_one (bytes : List Byte) :
    (encChars bytes).length + 1 = minEncodedLength bytes.length := by
  simpa [encText] using length_encText bytes

/-- Settles O29: the text has no unit but characters, whose values carry the bits of the bytes; the
zeros after them are too few for a further byte. -/
theorem roundTrip : Obligations.RoundTrip := by
  intro bytes
  have valid : validPrefix (encChars bytes) = encChars bytes := by
    simp [validPrefix_eq_self_iff, encChars]
  have length := length_encChars_add_one bytes
  refine ⟨?_, valid, length, ?_⟩
  · rw [decBytes, valid, encChars, textValues_map_charOf, flatMap_symBits_encValues]
    exact cutUnits_flatMap_unitBits_append bytes (by rw [List.length_replicate]; omega)
  · rw [Nat.eq_sub_of_add_eq length, maxDecodedLength_minEncodedLength_pred]

end Sys2Proof.Machine
end

section
/-! # DECODE: what each micro-step does

As for ENCODE, each effect is the inversion lemma of its micro-step read backwards. -/

namespace Sys2Proof.Machine

/-! ## The acceptance -/

/-- On a legal launch the length is the one of the premises (43_decode.md R161). -/
theorem State.decodeLegal.effectiveLength_eq {s : State} {l : Nat} (legal : s.decodeLegal l) :
    ∃ tl : LenWord, tl.toNat = l ∧ effectiveLength s = .ok tl := by
  obtain ⟨-, explicit, inferred⟩ := legal
  cases sign : lenNegative s.len with
  | false =>
    have nonneg : s.len.toNat < 2 ^ (Config.lenW - 1) :=
      Nat.lt_of_not_le fun neg => by simp [(lenNegative_iff _).mpr neg] at sign
    obtain ⟨rfl, inside⟩ := explicit nonneg
    exact ⟨s.len, rfl, effectiveLength_eq_ok.mpr (.inr ⟨sign, inside, rfl⟩)⟩
  | true =>
    obtain ⟨fits, here, before⟩ := inferred ((lenNegative_iff _).mp sign)
    exact ⟨BitVec.ofNat _ l, (BitVec.toNat_ofNat l _).trans (Nat.mod_eq_of_lt fits),
      effectiveLength_eq_ok.mpr (.inl ⟨sign, l, Memory.firstTerm_eq_some.mpr ⟨here, before⟩, rfl⟩)⟩

/-- Settles O21: both forms are the acceptance, which on a legal launch fails on the capacity or
starts the run. -/
theorem decodeStarts : Obligations.DecodeStarts := by
  intro s l notBusy legal
  obtain ⟨tl, rfl, length⟩ := legal.effectiveLength_eq
  obtain ⟨room, -⟩ := legal
  rw [exec_decode_of_notBusy (i := .decode) notBusy (by simp),
    exec_decode_of_notBusy (i := .decStart s.ctl) notBusy (by simp)]
  by_cases short : s.cap.toNat < maxDecodedLength tl.toNat
  · have fails := decStartBody_eq_next (s := s.accept .decode).mpr
      ⟨tl, length, room, .inl ⟨short, rfl⟩⟩
    exact ⟨_, tl, rfl, fails, fails, fun _ => rfl,
      fun enough => absurd short (Nat.not_lt_of_le enough)⟩
  · have starts := decStartBody_eq_next (s := s.accept .decode).mpr
      ⟨tl, length, room, .inr ⟨Nat.le_of_not_lt short, rfl⟩⟩
    exact ⟨_, tl, rfl, starts, starts, fun h => absurd h short, fun _ => rfl⟩

/-! ## The steps of the decode pass -/

/-- Settles O22: the cursor is below TLEN, so it does not wrap. -/
theorem decWsEffect : Obligations.DecWsEffect := by
  intro s w mode more unit
  exact ⟨_, succ_toNat more, execDecWs_eq_next.mpr ⟨⟨mode, more, unit⟩, rfl⟩⟩

/-- Settles O23: the units R105 lists as invalid are those DEC.INV asks for. -/
theorem decInvEffect : Obligations.DecInvEffect := by
  intro s c mode more unit invalid
  exact ⟨_, succ_toNat more,
    execDecInv_eq_next.mpr ⟨⟨⟨mode, more, unit⟩, r105Invalid_iff.mp invalid⟩, rfl⟩⟩

/-- 43_decode.md R165 for any accumulator: what does not fit twelve bits is cut off. -/
theorem shiftInSym_toNat_mod (acc : AccWord) (v : Sym) :
    (shiftInSym acc v).toNat = (acc.toNat * 64 + v.toNat) % 2 ^ 12 := by
  have hv : v.toNat < 2 ^ 6 := v.isLt
  have cut : acc.toNat <<< 6 % 2 ^ 12 = (acc.toNat % 64) <<< 6 := by
    simp only [Nat.shiftLeft_eq]; omega
  simp only [shiftInSym, BitVec.toNat_or, BitVec.toNat_shiftLeft, BitVec.toNat_setWidth]
  rw [cut, Nat.mod_eq_of_lt (by omega : v.toNat < 2 ^ 12), or_shift_toNat hv]
  omega

theorem nbits_eq_zero {n : NbWord} : n = 0 ↔ n.toNat = 0 := BitVec.toNat_eq

/-- In the decode pass no bits are left exactly before the first character of a group of four: the
bits left are those of the characters taken in, less whole bytes. -/
theorem State.Inv.nbits_eq_zero_iff_symsTaken {s : State} (inv : s.Inv) (fits : s.symsFit)
    (mode : s.decAccumulating) : s.nbits = 0 ↔ s.symsTaken % 4 = 0 := by
  obtain ⟨op, ctl⟩ := mode
  have busy := State.busy_of_accumulating ctl
  have bits := fits busy op
  obtain ⟨-, -, -, run⟩ := inv.decRun op busy
  obtain ⟨-, left, -, -⟩ := State.decFits_iff.mp run
  obtain ⟨-, few⟩ := left ctl
  rw [nbits_eq_zero]
  omega

/-- Settles O24: with at most six valid bits the value fits beside them, and a whole byte is valid
after it unless none were. -/
theorem decSymEffect : Obligations.DecSymEffect := by
  intro s c v mode more unit value few
  obtain rfl := charOf_of_valueOf value
  have count := nbits_add_six few
  refine ⟨_, _, _, _, execDecSym_eq_next.mpr ⟨⟨⟨mode, more, unit⟩, few⟩, rfl⟩,
    shiftInSym_toNat_mod s.acc v, count, succ_toNat more, ctlByCount_eq_emitting.mpr,
    ctlByCount_eq_accumulating.mpr, fun fits even => ?_,
    fun inv fits => inv.nbits_eq_zero_iff_symsTaken fits mode⟩
  simp only [List.mem_cons, List.not_mem_nil, or_false] at even
  have most : s.nbits.toNat ≤ 6 := by omega
  have small : s.acc.toNat < 2 ^ 6 :=
    Nat.lt_of_lt_of_le fits (Nat.pow_le_pow_right (by decide) most)
  refine ⟨shiftInSym_toNat v small, shiftInSym_lt v fits most, ?_⟩
  rw [ctlByCount_eq_accumulating, count, nbits_eq_zero]
  omega

/-- Settles O26: the store is inside OUT, and NBITS has four bits, so fewer than eight stay valid. -/
theorem decEmitEffect : Obligations.DecEmitEffect := by
  intro s emit inside wf
  have ⟨_, _, whole⟩ := emit
  obtain ⟨m, store, stores⟩ := Memory.exists_write (topByte s.acc s.nbits) inside wf
  have count : (s.nbits - 8).toNat = s.nbits.toNat - 8 := nbits_sub_eight whole
  have back : ctlByCount 8 (s.nbits - 8) = .accumulating := by
    have := s.nbits.isLt
    rw [ctlByCount_eq_accumulating, count]
    omega
  refine ⟨m, _, _, _, back ▸ execDecEmit_eq_next.mpr ⟨emit, m, store, rfl⟩, stores,
    topByte_toNat _ _, count, maskValid_toNat _ _, fun ⟨_, most⟩ => ?_⟩
  omega

/-- Settles O27: DEC.END looks at the cursor only. -/
theorem decEndEffect : Obligations.DecEndEffect :=
  fun _ mode last => execDecEnd_eq_next.mpr ⟨⟨mode, last⟩, rfl⟩

/-! ## The bits of the characters taken in -/

@[simp] theorem valueOf_code (w : Whitespace) : valueOf w.code = none := by cases w <;> rfl

@[simp] theorem isWhitespace_code (w : Whitespace) : isWhitespace w.code = true := by
  cases w <;> rfl

/-- Outside a run nothing is asked of the characters taken in. -/
theorem State.symsFit_of_notBusy {s : State} (h : s.busy = false) : s.symsFit :=
  fun busy => by simp [h] at busy

/-- A run of ENCODE is no DECODE. -/
theorem State.symsFit_of_encode {s : State} (h : s.op = .encode) : s.symsFit :=
  fun _ op => by simp [h] at op

/-- Taking in the unit `c` adds the six bits of an alphabet character, and none for whitespace. -/
theorem State.symsFit.take_unit {s t : State} {c : Byte} (fits : s.symsFit) (at_unit : s.atUnit c)
    (inMem : t.inMem = s.inMem) (cursor : t.ipos.toNat = s.ipos.toNat + 1)
    (bits : 8 * t.opos.toNat + t.nbits.toNat =
      8 * s.opos.toNat + s.nbits.toNat + if (valueOf c).isSome then 6 else 0) : t.symsFit := by
  obtain ⟨⟨op, ctl⟩, -, unit⟩ := at_unit
  intro _ _
  rw [bits, fits (State.busy_of_accumulating ctl) op, State.symsTaken_succ inMem cursor unit]
  split <;> omega

theorem ExecNext.keeps_symsFit {i : Instr} {s t : State} (h : ExecNext i s t) (inv : s.Inv)
    (fits : s.symsFit) : t.symsFit := by
  cases h with
  | ignored | encSym => exact fits
  | minlen | maxlen | encodeFails | decodeFails | encTerm | decInv | decEnd =>
    exact State.symsFit_of_notBusy rfl
  | encodeStarts => exact State.symsFit_of_encode rfl
  | encByte mode | encFlush mode => exact State.symsFit_of_encode mode.1
  | encEmit emit => exact State.symsFit_of_encode emit.1
  | decodeStarts =>
    intro _ _
    rw [State.symsTaken_zero rfl]
    rfl
  | decWs unit =>
    have ⟨_, more, _⟩ := unit
    exact fits.take_unit unit rfl (succ_toNat more) (by simp)
  | decSym unit few =>
    have ⟨_, more, _⟩ := unit
    exact fits.take_unit unit rfl (succ_toNat more) (by
      simp only [nbits_add_six few, valueOf_charOf, Option.isSome_some, if_true, Nat.add_assoc])
  | decEmit emit =>
    obtain ⟨op, ctl, whole⟩ := emit
    intro _ _
    have busy := State.busy_of_emitting ctl
    have bits := fits busy op
    obtain ⟨hi, -, -, run⟩ := inv.decRun op busy
    simp only [nbits_sub_eight whole, succ_toNat (run.opos_lt_cap hi whole)]
    exact (by omega : 8 * (s.opos.toNat + 1) + (s.nbits.toNat - 8) = 6 * s.symsTaken)

/-- No host action touches a running DECODE; reset ends it. -/
theorem turn_holds_symsFit {s : State} (fits : s.symsFit) : s.turn.Holds State.symsFit := by
  unfold State.turn
  cases s.inputs with
  | nil => exact State.engineTurn_holds fits
  | cons action rest =>
    cases action with
    | engine => exact State.engineTurn_holds fits
    | read => exact fits
    | write => exact State.portWrite_holds fits (fun _ => fits) (fun _ => fits)
    | provideIn => exact State.provide_holds fun notBusy _ _ => State.symsFit_of_notBusy notBusy
    | provideOut => exact State.provide_holds fun _ _ _ => fits
    | readOut => exact State.hostReadOut_holds fun _ _ => fits
    | wait =>
      dsimp only
      split
      · exact fits
      · exact State.engineTurn_holds fits
    | reset => exact State.symsFit_of_notBusy rfl

theorem Turn.Holds.and {p q : State → Prop} {turn : Turn} (hp : turn.Holds p) (hq : turn.Holds q) :
    turn.Holds fun s => p s ∧ q s := by
  cases turn with
  | done | run => exact ⟨hp, hq⟩
  | refuse => trivial

/-- Settles O25: carried along with the invariant, which keeps OPOS from wrapping. -/
theorem symCountIsKept : Obligations.SymCountIsKept := by
  intro s t inv fits h
  refine (step_gives (p := fun u => u.Inv ∧ u.symsFit)
    ((turn_holds_inv inv).and (turn_holds_symsFit fits)) (fun i u v hu hexec => ?_) h).2
  obtain ⟨inv, fits⟩ := hu
  exact ⟨exec_keeps_inv inv hexec, (execNext_of_exec hexec).keeps_symsFit inv fits⟩

end Sys2Proof.Machine
end

section
/-! # A whole DECODE computes the reference bytes

`DecodeAt` says what holds at each state of a run: the units taken in are valid, and the bits of
their values are those of the bytes written and the bits left. Every micro-step ends the run or
brings it nearer to its end. -/

namespace Sys2Proof.Machine

/-! ## Texts taken in unit by unit -/

section
variable {text rest : List Byte} {c : Byte}

theorem validPrefix_append_of_valid (valid : validPrefix text = text)
    (h : isInvalidUnit c = false) : validPrefix (text ++ [c]) = text ++ [c] := by
  rw [validPrefix_eq_self_iff] at valid ⊢
  simpa [or_imp, forall_and, h] using valid

/-- The valid part of a text ends before its first invalid unit (43_decode.md R162). -/
theorem validPrefix_append_of_invalid (valid : validPrefix text = text)
    (h : isInvalidUnit c = true) : validPrefix (text ++ c :: rest) = text := by
  rw [validPrefix_eq_self_iff] at valid
  rw [validPrefix, List.takeWhile_append_of_pos (by simpa using valid)]
  simp [h]

/-- A unit that is not an alphabet character adds no value. -/
theorem textValues_append_of_noValue (h : valueOf c = none) :
    textValues (text ++ [c]) = textValues text := by
  cases space : isWhitespace c <;> simp [textValues, h, space]

theorem textValues_append_charOf (v : Sym) :
    textValues (text ++ [charOf v]) = textValues text ++ [v] := by
  simp [textValues]

end

/-- The units of a space up to `l`, cut at an index below. -/
theorem Memory.exists_firstUnits_eq {m : Memory} {i l : Nat} {c : Byte} (below : i < l)
    (unit : m.read i = some c) : ∃ rest, m.firstUnits l = m.firstUnits i ++ c :: rest := by
  obtain ⟨k, rfl⟩ := Nat.exists_eq_add_of_lt below
  refine ⟨(List.range k).map fun j => lookupCell m.cells (i + 1 + j), ?_⟩
  rw [List.append_cons, ← Memory.firstUnits_succ unit]
  simp [Memory.firstUnits, Nat.add_right_comm i k 1, List.range_add, Function.comp_def]

/-- A unit is whitespace, an alphabet character, or invalid (30_encoding.md R105). -/
theorem unit_cases (c : Byte) :
    (∃ w : Whitespace, c = w.code) ∨ (∃ v, c = charOf v) ∨ isInvalidUnit c = true := by
  obtain ⟨space, -⟩ | ⟨-, letter, -⟩ | ⟨-, -, invalid⟩ := r105_partition c
  · obtain ⟨w, code⟩ := r105Whitespace_iff.mp space
    exact .inl ⟨w, code.symm⟩
  · exact .inr (.inl (r105Alphabet_iff.mp letter))
  · exact .inr (.inr (r105Invalid_iff.mp invalid))

/-! ## The accumulator as a bit list -/

/-- The first `k` bits of a list are the quotient of its value, the others the remainder. -/
theorem bitsValue_take (bits : List Bool) (k : Nat) :
    bitsValue (bits.take k) = bitsValue bits / 2 ^ (bits.length - k) := by
  have split := bitsValue_append (bits.take k) (bits.drop k)
  have low := bitsValue_lt (bits.drop k)
  rw [List.take_append_drop] at split
  rw [List.length_drop] at split low
  rw [split, Nat.mul_comm, Nat.mul_add_div (Nat.two_pow_pos _), Nat.div_eq_of_lt low, Nat.add_zero]

theorem bitsValue_drop (bits : List Bool) (k : Nat) :
    bitsValue (bits.drop k) = bitsValue bits % 2 ^ (bits.length - k) := by
  have split := bitsValue_append (bits.take k) (bits.drop k)
  have low := bitsValue_lt (bits.drop k)
  rw [List.take_append_drop] at split
  rw [List.length_drop] at split low
  rw [split, Nat.mul_add_mod', Nat.mod_eq_of_lt low]

section
variable {acc a : AccWord} {n n' : NbWord} {bits : List Bool}

/-- 43_decode.md R165. -/
theorem ValidBits.sym {v : Sym} (h : ValidBits acc n bits)
    (value : a.toNat = acc.toNat * 64 + v.toNat) (count : n'.toNat = n.toNat + 6) :
    ValidBits a n' (bits ++ symBits v) := by
  obtain ⟨length, sum⟩ := h
  refine ⟨by rw [List.length_append, length, count, length_symBits], ?_⟩
  rw [bitsValue_append, bitsValue_symBits, sum, value, length_symBits]
  rfl

/-- 43_decode.md R166: the slice is the first eight bits, the mask keeps the others. -/
theorem ValidBits.emit_unit {u : Byte} (h : ValidBits acc n bits) (whole : 8 ≤ n.toNat)
    (value : u.toNat = acc.toNat / 2 ^ (n.toNat - 8) % 256) (count : n'.toNat = n.toNat - 8)
    (masked : a.toNat = acc.toNat % 2 ^ n'.toNat) :
    ∃ rest, bits = unitBits u ++ rest ∧ ValidBits a n' rest := by
  obtain ⟨length, sum⟩ := h
  have top_length : (bits.take 8).length = 8 := by simp; omega
  have top_lt : bitsValue (bits.take 8) < 256 := by
    simpa [top_length] using bitsValue_lt (bits.take 8)
  have top : bitsValue (bits.take 8) = u.toNat := by
    rw [value, ← sum, ← length, ← bitsValue_take, Nat.mod_eq_of_lt top_lt]
  refine ⟨bits.drop 8, ?_, ?_, ?_⟩
  · rw [← eq_unitBits top_length top, List.take_append_drop]
  · rw [List.length_drop, length, count]
  · rw [bitsValue_drop, sum, length, masked, count]

end

/-! ## The run -/

/-- What a run of the DECODE of `l` units accepted in `s` leaves from its first state on. -/
def DecodeFrame (s : State) (l : Nat) (u : State) : Prop :=
  u.op = .decode ∧ u.inputs = [] ∧ u.tlen.toNat = l ∧ u.inMem = s.inMem ∧ u.len = s.len ∧
    u.cap = s.cap ∧ u.result = s.result

/-- The run of the DECODE of `l` units accepted in `s` is at `u`, with `bytes` written and the bits
`left` valid. -/
structure DecodeAt (s : State) (l : Nat) (u : State) (bytes : List Byte) (left : List Bool) :
    Prop where
  inv : u.Inv
  busy : u.busy = true
  frame : DecodeFrame s l u
  count : u.count = s.count
  written : u.opos.toNat = bytes.length
  stored : u.outMem.HoldsOver s.outMem bytes
  valid : ValidBits u.acc u.nbits left
  clean : validPrefix (u.inMem.firstUnits u.ipos.toNat) = u.inMem.firstUnits u.ipos.toNat
  bits : (textValues (u.inMem.firstUnits u.ipos.toNat)).flatMap symBits =
    bytes.flatMap unitBits ++ left

/-- How a DECODE of the units `text` accepted in `s` ends: Done, or Failed at an invalid unit. -/
def DecodeOutcome (s : State) (text : List Byte) (t : State) : Prop :=
  (validPrefix text = text →
    t.ctl = .done ∧ t.err = .ok ∧ t.count.toNat = (decBytes text).length) ∧
  (validPrefix text ≠ text → t.ctl = .failed ∧ t.err = .invalidInput ∧ t.count = s.count)

/-- The run of the DECODE of `l` units accepted in `s` has ended in `t`. -/
structure DecodeEnded (s : State) (l : Nat) (t : State) : Prop where
  outcome : DecodeOutcome s (s.inMem.firstUnits l) t
  frame : DecodeFrame s l t
  stored : t.outMem.HoldsOver s.outMem (decBytes (s.inMem.firstUnits l))

/-- A bound on the micro-steps a running DECODE still takes: one for each unit to take in, one for
each byte there is room for, and DEC.END (43_decode.md R168). -/
def State.decodeStepsLeft (u : State) : Nat :=
  (u.tlen.toNat - u.ipos.toNat) + (maxDecodedLength u.tlen.toNat - u.opos.toNat) + 1

/-- A running DECODE with a whole byte valid has not written the last that the text has room for. -/
theorem State.decFits.opos_lt_maxDecodedLength {s : State} (fits : s.decFits)
    (hi : s.ipos.toNat ≤ s.tlen.toNat) (whole : 8 ≤ s.nbits.toNat) :
    s.opos.toNat < maxDecodedLength s.tlen.toNat := by
  obtain ⟨-, -, -, bits⟩ := fits
  have rounds := maxDecodedLength_rounds_down s.tlen.toNat
  omega

/-- In the decode pass the step is that of the unit at the cursor. -/
theorem step_of_atUnit {s : State} {c : Byte} (inputs : s.inputs = []) (h : s.atUnit c) :
    step s = exec (decodeUnit c) s := by
  have ⟨⟨_, ctl⟩, _⟩ := h
  exact step_of_engineWord inputs (State.busy_of_accumulating ctl) (decode_engineWord_of_atUnit h)

section
variable {s u : State} {l : Nat} {bytes : List Byte} {left : List Bool} {c : Byte}

theorem DecodeAt.decRun (h : DecodeAt s l u bytes left) :
    u.ipos.toNat ≤ u.tlen.toNat ∧ u.tlen.toNat ≤ u.inMem.size ∧ u.cap.toNat ≤ u.outMem.size ∧
      u.decFits := by
  obtain ⟨op, -⟩ := h.frame
  exact h.inv.decRun op h.busy

/-- In the decode pass fewer bits are left than a byte has. -/
theorem DecodeAt.left_lt (h : DecodeAt s l u bytes left) (mode : u.ctl = .accumulating) :
    left.length < 8 := by
  obtain ⟨-, -, -, fits⟩ := h.decRun
  obtain ⟨-, few, -, -⟩ := State.decFits_iff.mp fits
  have := few mode
  rw [h.valid.length]
  omega

/-- In the decode pass the bytes written are the reference bytes of a text whose valid part is the
units taken in. -/
theorem DecodeAt.decBytes_eq {text : List Byte} (h : DecodeAt s l u bytes left)
    (mode : u.ctl = .accumulating) (taken : validPrefix text = u.inMem.firstUnits u.ipos.toNat) :
    decBytes text = bytes := by
  rw [decBytes, taken, h.bits, cutUnits_flatMap_unitBits_append bytes (h.left_lt mode)]

/-- One micro-step of a run that does not end it. -/
def DecodeAdvances (s : State) (l : Nat) (u : State) : Prop :=
  ∃ u' bytes left, step u = .next u' ∧ DecodeAt s l u' bytes left ∧
    u'.decodeStepsLeft < u.decodeStepsLeft

theorem DecodeAt.decWs_advances {w : Whitespace} (h : DecodeAt s l u bytes left)
    (mode : u.ctl = .accumulating) (more : u.ipos.toNat < u.tlen.toNat)
    (unit : u.inMem.read u.ipos.toNat = some w.code) : DecodeAdvances s l u := by
  have ⟨op, inputs, _⟩ := h.frame
  obtain ⟨p, cursor, runs⟩ := decWsEffect u w ⟨op, mode⟩ more unit
  have steps := (step_of_atUnit inputs ⟨⟨op, mode⟩, more, unit⟩).trans (decodeUnit_code w ▸ runs)
  have taken := Memory.firstUnits_succ unit
  refine ⟨_, bytes, left, steps, {
    inv := stepKeepsInvariant _ _ h.inv steps
    busy := h.busy
    frame := h.frame
    count := h.count
    written := h.written
    stored := h.stored
    valid := h.valid
    clean := ?_
    bits := ?_ }, ?_⟩
  · simp only [cursor, taken]
    exact validPrefix_append_of_valid h.clean (by simp [isInvalidUnit])
  · simp only [cursor, taken]
    rw [textValues_append_of_noValue (valueOf_code w), h.bits]
  · simp only [State.decodeStepsLeft, cursor]
    omega

theorem DecodeAt.decSym_advances {v : Sym} (h : DecodeAt s l u bytes left)
    (mode : u.ctl = .accumulating) (more : u.ipos.toNat < u.tlen.toNat)
    (unit : u.inMem.read u.ipos.toNat = some (charOf v)) : DecodeAdvances s l u := by
  have ⟨op, inputs, _⟩ := h.frame
  obtain ⟨-, -, ⟨acc_lt, -⟩, -⟩ := h.inv
  obtain ⟨-, -, -, -, few, -⟩ := h.decRun
  have under : u.nbits.toNat < 8 := h.valid.length ▸ h.left_lt mode
  obtain ⟨a, n, p, st, runs, -, count, cursor, full, fewer, uncut, -⟩ :=
    decSymEffect u _ v ⟨op, mode⟩ more unit (valueOf_charOf v) under
  obtain ⟨value, -⟩ := uncut acc_lt (few mode)
  have steps := (step_of_atUnit inputs ⟨⟨op, mode⟩, more, unit⟩).trans (decodeUnit_charOf v ▸ runs)
  have taken := Memory.firstUnits_succ unit
  refine ⟨_, bytes, left ++ symBits v, steps, {
    inv := stepKeepsInvariant _ _ h.inv steps
    busy := ?_
    frame := h.frame
    count := h.count
    written := h.written
    stored := h.stored
    valid := h.valid.sym value count
    clean := ?_
    bits := ?_ }, ?_⟩
  · obtain below | whole := Nat.lt_or_ge n.toNat 8
    · exact State.busy_of_accumulating (fewer below)
    · exact State.busy_of_emitting (full whole)
  · simp only [cursor, taken]
    exact validPrefix_append_of_valid h.clean (isInvalidUnit_charOf v)
  · simp only [cursor, taken]
    rw [textValues_append_charOf, List.flatMap_append, h.bits, List.append_assoc,
      List.flatMap_singleton]
  · simp only [State.decodeStepsLeft, cursor]
    omega

theorem DecodeAt.decEmit_advances (h : DecodeAt s l u bytes left) (mode : u.ctl = .emitting) :
    DecodeAdvances s l u := by
  have ⟨op, inputs, _⟩ := h.frame
  obtain ⟨⟨-, wf, -⟩, -⟩ := h.inv
  obtain ⟨hi, -, hout, fits⟩ := h.decRun
  obtain ⟨-, -, ready, -⟩ := State.decFits_iff.mp fits
  obtain ⟨-, whole, -⟩ := ready mode
  have room := fits.opos_lt_cap hi whole
  have below := fits.opos_lt_maxDecodedLength hi whole
  have pos := succ_toNat room
  obtain ⟨m, b, a, n, runs, store, value, count, masked, -⟩ :=
    decEmitEffect u ⟨op, mode, whole⟩ (Nat.lt_of_lt_of_le room hout) wf
  obtain ⟨rest, rfl, valid⟩ := h.valid.emit_unit whole value count masked
  obtain ⟨-, -, -, -, -, -, dispatch⟩ := stepDispatch u inputs
  have steps := (dispatch op mode).trans runs
  refine ⟨_, bytes ++ [b], rest, steps, {
    inv := stepKeepsInvariant _ _ h.inv steps
    busy := rfl
    frame := h.frame
    count := h.count
    written := ?_
    stored := h.stored.append (h.written ▸ store)
    valid := valid
    clean := h.clean
    bits := ?_ }, ?_⟩
  · simp only [pos, h.written, List.length_append, List.length_singleton]
  · simpa using h.bits
  · simp only [State.decodeStepsLeft, pos]
    omega

/-- DEC.INV ends the run Failed: the valid part of the text is the units taken in before. -/
theorem DecodeAt.decInv_ends (h : DecodeAt s l u bytes left) (mode : u.ctl = .accumulating)
    (more : u.ipos.toNat < u.tlen.toNat) (unit : u.inMem.read u.ipos.toNat = some c)
    (invalid : isInvalidUnit c = true) : ∃ t, step u = .next t ∧ DecodeEnded s l t := by
  have frame := h.frame
  obtain ⟨op, inputs, tlen, inMem, -⟩ := h.frame
  obtain ⟨p, -, runs⟩ := decInvEffect u c ⟨op, mode⟩ more unit (r105Invalid_iff.mpr invalid)
  have steps := (step_of_atUnit inputs ⟨⟨op, mode⟩, more, unit⟩).trans
    (decodeUnit_of_isInvalidUnit invalid ▸ runs)
  obtain ⟨rest, text⟩ := Memory.exists_firstUnits_eq (tlen ▸ more) unit
  rw [inMem] at text
  have stops : validPrefix (s.inMem.firstUnits l) = s.inMem.firstUnits u.ipos.toNat := by
    rw [text]
    exact validPrefix_append_of_invalid (inMem ▸ h.clean) invalid
  have written := h.decBytes_eq mode (stops.trans (by rw [inMem]))
  refine ⟨_, steps, {
    outcome := ⟨fun whole => ?_, fun _ => ⟨rfl, rfl, h.count⟩⟩
    frame := frame
    stored := written ▸ h.stored }⟩
  rw [stops, text] at whole
  simp at whole

/-- DEC.END ends the run Done: the units taken in are the text. -/
theorem DecodeAt.decEnd_ends (h : DecodeAt s l u bytes left) (mode : u.ctl = .accumulating)
    (last : u.ipos = u.tlen) : ∃ t, step u = .next t ∧ DecodeEnded s l t := by
  have frame := h.frame
  obtain ⟨op, inputs, tlen, inMem, -⟩ := h.frame
  obtain ⟨-, -, -, -, -, dispatch, -⟩ := stepDispatch u inputs
  have steps := (dispatch op mode last).trans (decEndEffect u ⟨op, mode⟩ last)
  obtain ⟨-, err, -⟩ := stepKeepsInvariant _ _ h.inv steps
  have text : u.inMem.firstUnits u.ipos.toNat = s.inMem.firstUnits l := by rw [inMem, last, tlen]
  have valid : validPrefix (s.inMem.firstUnits l) = s.inMem.firstUnits l := text ▸ h.clean
  have written := h.decBytes_eq mode (valid.trans text.symm)
  exact ⟨_, steps, {
    outcome := ⟨fun _ => ⟨rfl, err.mpr nofun, written ▸ h.written⟩, fun cut => absurd valid cut⟩
    frame := frame
    stored := written ▸ h.stored }⟩

/-- What a micro-step of a run does: it is the last, or it brings the run nearer to its end. -/
theorem DecodeAt.ends_or_advances (h : DecodeAt s l u bytes left) :
    (∃ t, step u = .next t ∧ DecodeEnded s l t) ∨ DecodeAdvances s l u := by
  obtain ⟨hi, hin, -⟩ := h.decRun
  cases mode : u.ctl with
  | emitting => exact .inr (h.decEmit_advances mode)
  | accumulating =>
    by_cases last : u.ipos = u.tlen
    · exact .inl (h.decEnd_ends mode last)
    · have more := Nat.lt_of_le_of_ne hi fun same => last (BitVec.eq_of_toNat_eq same)
      have unit : u.inMem.read u.ipos.toNat = some (lookupCell u.inMem.cells u.ipos.toNat) :=
        Memory.read_eq_some.mpr ⟨Nat.lt_of_lt_of_le more hin, rfl⟩
      obtain ⟨w, space⟩ | ⟨v, letter⟩ | invalid :=
        unit_cases (lookupCell u.inMem.cells u.ipos.toNat)
      · exact .inr (h.decWs_advances mode more (space ▸ unit))
      · exact .inr (h.decSym_advances mode more (letter ▸ unit))
      · exact .inl (h.decInv_ends mode more unit invalid)
  | idle | done | failed =>
    have := h.busy
    simp [State.busy, mode, CtlState.busy] at this

end

/-- A run ends within the steps left. -/
theorem DecodeAt.run {s : State} {l : Nat} (n : Nat) {u : State} {bytes : List Byte}
    {left : List Bool} (h : DecodeAt s l u bytes left) (bound : u.decodeStepsLeft ≤ n) :
    ∃ k ≤ n, ∃ t, core.run k u = .next t ∧ DecodeEnded s l t := by
  induction n generalizing u bytes left with
  | zero => exact absurd bound (Nat.not_succ_le_zero _)
  | succ n ih =>
    obtain ⟨t, last, ended⟩ | ⟨u', bytes', left', first, h', fewer⟩ := h.ends_or_advances
    · exact ⟨1, Nat.le_add_left 1 n, t, core_run_succ last, ended⟩
    · obtain ⟨k, few, t, ends, ended⟩ := ih h' (Nat.le_of_lt_succ (Nat.lt_of_lt_of_le fewer bound))
      exact ⟨k + 1, Nat.succ_le_succ few, t, (core_run_succ first).trans ends, ended⟩

/-- The host's write of 3 to CMD starts the run, at the first of its states. -/
theorem decodeAt_of_command {s : State} {l : Nat} (notBusy : s.busy = false)
    (hin : s.inMem.wf = true) (hout : s.outMem.wf = true) (legal : s.decodeLegal l)
    (room : maxDecodedLength l ≤ s.cap.toNat) (inputs : s.inputs = [.write 0 3]) :
    ∃ u, step s = .next u ∧ DecodeAt s l u [] [] ∧
      u.decodeStepsLeft = l + maxDecodedLength l + 1 := by
  have command : step s = exec .decode { s with inputs := [] } :=
    (stepRunsPresentedWord s .decode).1 3 [] inputs rfl
  obtain ⟨u, tl, rfl, runs, -, -, starts⟩ := decodeStarts { s with inputs := [] } l notBusy legal
  obtain rfl := starts room
  have inside : tl.toNat ≤ s.inMem.size := by
    obtain ⟨tl', same, length⟩ := legal.effectiveLength_eq
    exact same ▸ effectiveLength_le length
  exact ⟨_, command.trans runs, {
    inv := ⟨⟨hin, hout, hout⟩, iff_of_true rfl nofun, empty_acc_fits, fun _ =>
      ⟨Nat.zero_le _, inside, legal.1,
        .inr ⟨rfl, room, fun _ => List.mem_cons_self, nofun, Nat.le_refl 0⟩⟩⟩
    busy := rfl
    frame := ⟨rfl, rfl, rfl, rfl, rfl, rfl, rfl⟩
    count := rfl
    written := rfl
    stored := Memory.HoldsOver.nil _
    valid := ⟨rfl, rfl⟩
    clean := rfl
    bits := rfl }, rfl⟩

/-- Settles O28: the run starts with nothing written and takes at most a step for each unit, one for
each byte, and the last; where it ends, the bytes written are those of the reference. -/
theorem decodeComputesReference : Obligations.DecodeComputesReference := by
  intro s l notBusy hin hout legal room inputs
  obtain ⟨u, first, h, steps⟩ := decodeAt_of_command notBusy hin hout legal room inputs
  obtain ⟨k, few, t, ends, ⟨done, failed⟩, ⟨op, -, -, frame⟩, stored⟩ := h.run _ steps.le
  obtain ⟨inMem, len, cap, result⟩ := frame
  refine ⟨k + 1, t, Nat.le_add_left 1 k, ?_, (core_run_succ first).trans ends, done, failed,
    fun j below => stored.read_below below, fun j above => stored.read_above above, inMem, len, cap,
    result, op⟩
  rw [maxDecodedLength, Nat.mul_comm] at few
  omega

end Sys2Proof.Machine
end

section
/-! # The control machine: what changes STATE, and what leaves it -/

namespace Sys2Proof.Machine

/-! ## The turn of a step and the registers -/

/-- What a turn leaves, or hands to its instruction: every register as it was; or a LEN or CAP that
the host wrote; or the reset values. -/
inductive TurnLeaves (s : State) : State → Prop where
  /-- The engine's turn, a read, a space provided (10_state.md R20, 44_control.md R198). -/
  | kept {inputs : List HostAction} {r : ResWord} {m m' : Memory} {k : Nat} :
      TurnLeaves s { s with inputs := inputs, rdata := r, inMem := m, outMem := m', freeCount := k }
  /-- 10_state.md R22, R23. -/
  | written {n : Nat} {data l c : LenWord} {rest : List HostAction}
      (action : s.inputs = .write n data :: rest) :
      TurnLeaves s { s with inputs := rest, len := l, cap := c }
  /-- 70_reset_and_hazards.md R231. -/
  | reset {rest : List HostAction} (action : s.inputs = .reset :: rest) :
      TurnLeaves s ({ s with inputs := rest } : State).rst

theorem turn_holds_leaves (s : State) : s.turn.Holds (TurnLeaves s) := by
  unfold State.turn
  cases action : s.inputs with
  | nil => exact State.engineTurn_holds .kept
  | cons a rest =>
    cases a with
    | engine => exact State.engineTurn_holds .kept
    | read => exact .kept
    | write =>
      exact State.portWrite_holds .kept (fun _ => .written action) (fun _ => .written action)
    | provideIn | provideOut => exact State.provide_holds fun _ _ _ => .kept
    | readOut => exact State.hostReadOut_holds fun _ _ => .kept
    | wait =>
      dsimp only
      split
      · exact .kept
      · exact State.engineTurn_holds .kept
    | reset => exact .reset action

/-- All that a step can do that runs no instruction. -/
theorem turnLeaves_of_done {s t : State} (done : s.turn = .done t) : TurnLeaves s t := by
  have leaves := turn_holds_leaves s
  rw [done] at leaves
  exact leaves

/-! ## The state table -/

/-- No row of the table enters Idle (44_control.md R198). -/
theorem mayBecome_idle (st : CtlState) : st.mayBecome .idle = false := by cases st <;> rfl

/-- A run may stay where it is. -/
theorem mayBecome_self {st : CtlState} (busy : st.busy = true) : st.mayBecome st = true := by
  cases st with
  | accumulating | emitting => rfl
  | idle | done | failed => cases busy

/-- An accepted command ends at once or starts a run. -/
theorem mayBecome_of_notBusy {st st' : CtlState} (notBusy : st.busy = false)
    (notIdle : st' ≠ .idle) (notEmitting : st' ≠ .emitting) : st.mayBecome st' = true := by
  cases st with
  | idle | done | failed =>
    cases st' with
    | done | failed | accumulating => rfl
    | idle => exact absurd rfl notIdle
    | emitting => exact absurd rfl notEmitting
  | accumulating | emitting => cases notBusy

/-- The steps that count their bits stay in the run. -/
theorem mayBecome_ctlByCount {st : CtlState} (busy : st.busy = true) (k : Nat) (n : NbWord) :
    st.mayBecome (ctlByCount k n) = true := by
  unfold ctlByCount
  cases st with
  | accumulating | emitting => split <;> rfl
  | idle | done | failed => cases busy

/-- An instruction changes STATE along a row of the table; the lookup leaves it. -/
theorem ExecNext.ctl_cases {i : Instr} {s t : State} (h : ExecNext i s t) :
    (∃ v, i = .encSym v) ∧ t.ctl = s.ctl ∨ s.ctl.mayBecome t.ctl = true := by
  cases h with
  | encSym => exact .inl ⟨⟨_, rfl⟩, rfl⟩
  | ignored _ busy => exact .inr (mayBecome_self busy)
  | minlen notBusy | maxlen notBusy | encodeFails _ notBusy | encodeStarts _ notBusy
  | decodeFails _ notBusy | decodeStarts _ notBusy =>
    exact .inr (mayBecome_of_notBusy notBusy nofun nofun)
  | encByte mode | encFlush mode | encTerm mode | decEnd mode =>
    obtain ⟨-, mode⟩ := mode
    exact .inr (by rw [mode]; rfl)
  | decWs unit | decInv unit =>
    obtain ⟨⟨-, mode⟩, -⟩ := unit
    exact .inr (by rw [mode]; rfl)
  | decSym unit =>
    obtain ⟨⟨-, mode⟩, -⟩ := unit
    exact .inr (mayBecome_ctlByCount (State.busy_of_accumulating mode) _ _)
  | encEmit emit | decEmit emit =>
    obtain ⟨-, mode, -⟩ := emit
    exact .inr (mayBecome_ctlByCount (State.busy_of_emitting mode) _ _)

/-- Settles O35: a turn leaves STATE or is the reset, and an instruction keeps to the table. -/
theorem stateTableIsComplete : Obligations.StateTableIsComplete := by
  intro s t h
  obtain done | ⟨i, u, run, runs⟩ := step_eq_next.mp h
  · cases turnLeaves_of_done done with
    | kept | written => exact .inl rfl
    | reset action => exact .inr (.inr ⟨rfl, _, action⟩)
  · have same : u.ctl = s.ctl := by rw [State.eq_of_turn_eq_run run]
    obtain ⟨-, stays⟩ | row := (execNext_of_exec runs).ctl_cases
    · exact .inl (stays.trans same)
    · exact .inr (.inl (same ▸ row))

/-! ## Not busy -/

/-- The acceptance step of an ENCODE reads neither STATE nor ERR. -/
theorem encStartBody_accept_ignores_outcome (s : State) (a b : CtlState) (e e' : ErrKind) :
    encStartBody (({ s with ctl := a, err := e } : State).accept .encode) =
      encStartBody (({ s with ctl := b, err := e' } : State).accept .encode) := rfl

/-- The acceptance step of a DECODE reads neither STATE nor ERR. -/
theorem decStartBody_accept_ignores_outcome (s : State) (a b : CtlState) (e e' : ErrKind) :
    decStartBody (({ s with ctl := a, err := e } : State).accept .decode) =
      decStartBody (({ s with ctl := b, err := e' } : State).accept .decode) := rfl

/-- Settles O36: each command is its acceptance step, which writes STATE and ERR without reading
them. -/
theorem acceptanceIgnoresLastOutcome : Obligations.AcceptanceIgnoresLastOutcome := by
  intro s a b e e' i command ha hb
  have notBusy : ({ s with ctl := a, err := e } : State).busy = false := ha
  have notBusy' : ({ s with ctl := b, err := e' } : State).busy = false := hb
  simp only [List.mem_cons, List.not_mem_nil, or_false] at command
  obtain rfl | rfl | rfl | rfl := command
  · rw [exec_minlen_of_notBusy notBusy, exec_minlen_of_notBusy notBusy']
    rfl
  · rw [exec_maxlen_of_notBusy notBusy, exec_maxlen_of_notBusy notBusy']
    rfl
  · rw [exec_encode_of_notBusy notBusy (by simp), exec_encode_of_notBusy notBusy' (by simp)]
    exact encStartBody_accept_ignores_outcome s a b e e'
  · rw [exec_decode_of_notBusy notBusy (by simp), exec_decode_of_notBusy notBusy' (by simp)]
    exact decStartBody_accept_ignores_outcome s a b e e'

/-- The engine runs a micro-step only while busy (44_control.md R198). -/
theorem State.busy_of_engineTurn_eq_run {s u : State} {i : Instr} (run : s.engineTurn = .run i u) :
    s.busy = true := by
  unfold State.engineTurn at run
  split at run
  · assumption
  · cases run

/-- An instruction runs while busy or by a register write. -/
theorem State.busy_or_write_of_turn_eq_run {s u : State} {i : Instr} (run : s.turn = .run i u) :
    s.busy = true ∨ ∃ n data rest, s.inputs = .write n data :: rest := by
  unfold State.turn at run
  cases action : s.inputs with
  | nil => rw [action] at run; exact .inl (State.busy_of_engineTurn_eq_run run)
  | cons a rest =>
    rw [action] at run
    cases a with
    | write n data => exact .inr ⟨n, data, rest, rfl⟩
    | engine => exact .inl (State.busy_of_engineTurn_eq_run (s := { s with inputs := rest }) run)
    | provideIn | provideOut => exact (State.provide_ne_run run).elim
    | readOut => exact (State.hostReadOut_ne_run run).elim
    | wait =>
      dsimp only at run
      split at run
      · cases run
      · exact .inl (State.busy_of_engineTurn_eq_run run)
    | read | reset => cases run

/-- Settles O37: with neither a register write nor a reset at hand the turn keeps the registers, and no
instruction runs. -/
theorem notBusyIsStable : Obligations.NotBusyIsStable := by
  intro s t notBusy noWrite noReset h
  obtain done | ⟨i, u, run, -⟩ := step_eq_next.mp h
  · cases turnLeaves_of_done done with
    | kept => exact ⟨rfl, rfl, rfl, rfl, rfl, rfl, rfl, rfl, rfl, rfl, rfl, rfl⟩
    | written action => exact (noWrite _ _ _ action).elim
    | reset action => exact (noReset _ action).elim
  · obtain busy | ⟨n, data, rest, action⟩ := State.busy_or_write_of_turn_eq_run run
    · rw [notBusy] at busy
      cases busy
    · exact (noWrite n data rest action).elim

/-! ## Busy -/

theorem State.ctl_of_busy {s : State} (busy : s.busy = true) :
    s.ctl = .accumulating ∨ s.ctl = .emitting := by
  unfold State.busy at busy
  cases mode : s.ctl with
  | accumulating => exact .inl rfl
  | emitting => exact .inr rfl
  | idle | done | failed => rw [mode] at busy; cases busy

/-- While busy a command is ignored (44_control.md R191). -/
theorem exec_decodeCmd_of_busy {s : State} (op : BitVec 2) (busy : s.busy = true) :
    exec (decodeCmd op) s = .next s := by
  unfold decodeCmd
  split
  · exact exec_minlen_of_busy busy
  · exact exec_maxlen_of_busy busy
  · exact State.onCommand_busy busy
  · exact State.onCommand_busy busy

/-- While busy a write to any register but CMD ends the event and changes nothing. -/
theorem State.portWrite_of_busy {s : State} {n : Nat} (data : LenWord) (busy : s.busy = true)
    (notCmd : n ≠ 0) : s.portWrite n data = .done s := by
  match n with
  | 0 => exact absurd rfl notCmd
  | 1 | 2 => simp [State.portWrite, busy]
  | _ + 3 => rfl

theorem step_of_write_busy {s : State} {n : Nat} {data : LenWord} {rest : List HostAction}
    (busy : s.busy = true) (action : s.inputs = .write n data :: rest) :
    step s = .next { s with inputs := rest } := by
  have after : ({ s with inputs := rest } : State).busy = true := busy
  by_cases cmd : n = 0
  · subst cmd
    exact (step_of_turn_eq_run (State.turn_of_cmd action)).trans (exec_decodeCmd_of_busy _ after)
  · have turn : s.turn = ({ s with inputs := rest } : State).portWrite n data := by
      rw [State.turn, action]
    exact step_eq_next.mpr (.inl (turn.trans (State.portWrite_of_busy data after cmd)))

theorem step_of_read {s : State} {n : Nat} {rest : List HostAction}
    (action : s.inputs = .read n :: rest) :
    step s = .next { s with inputs := rest, rdata := s.portRead n } :=
  step_eq_next.mpr (.inl (by rw [State.turn, action]))

/-- During a run ERR is OK, so STATUS is the code of STATE alone. -/
theorem State.portRead_status_of_busy {s : State} (busy : s.busy = true) (inv : s.Inv) :
    s.ctl = .accumulating ∧ (s.portRead 3).toNat = 0x01 ∨
      s.ctl = .emitting ∧ (s.portRead 3).toNat = 0x02 := by
  obtain ⟨-, err, -⟩ := inv
  obtain ⟨-, -, notFailed⟩ := State.ctl_ne_of_busy busy
  rw [State.portRead_status_toNat, err.mpr notFailed]
  obtain mode | mode := State.ctl_of_busy busy
  · exact .inl ⟨mode, by rw [mode]; rfl⟩
  · exact .inr ⟨mode, by rw [mode]; rfl⟩

/-- Settles O33: writes are dropped, and a read changes the data read only; the port is wide enough for
every register. -/
theorem busyBlockIgnoresWrites : Obligations.BusyBlockIgnoresWrites := by
  intro s rest busy
  refine ⟨fun n data action => step_of_write_busy busy action, fun n action =>
    ⟨s.portRead n, step_of_read action, ?_, ?_, ?_, ?_, ?_, ?_⟩⟩
  · rintro rfl; exact BitVec.toNat_setWidth_of_le (by decide)
  · rintro rfl; exact BitVec.toNat_setWidth_of_le (by decide)
  · rintro rfl; exact BitVec.toNat_setWidth_of_le (by decide)
  · rintro rfl; exact BitVec.toNat_setWidth_of_le (by decide)
  · rintro rfl; rfl
  · rintro rfl inv; exact State.portRead_status_of_busy busy inv

end Sys2Proof.Machine
end

section
/-! # A run makes progress and ends

`State.stepsLeft` bounds the micro-steps a run still takes. From every state of the invariant the
engine's step has a next state and lowers it. -/

namespace Sys2Proof.Machine

/-! ## The micro-steps still to take -/

/-- A bound on the engine's steps until the block is not busy (44_control.md R199). -/
def State.stepsLeft (u : State) : Nat :=
  if u.busy then
    match u.op with
    | .encode => u.encodeStepsLeft
    | .decode => u.decodeStepsLeft
    | .minlen | .maxlen => 0
  else 0

theorem State.stepsLeft_of_notBusy {u : State} (notBusy : u.busy = false) : u.stepsLeft = 0 := by
  simp [State.stepsLeft, notBusy]

theorem State.stepsLeft_of_encode {u : State} (busy : u.busy = true) (op : u.op = .encode) :
    u.stepsLeft = u.encodeStepsLeft := by
  simp [State.stepsLeft, busy, op]

theorem State.stepsLeft_of_decode {u : State} (busy : u.busy = true) (op : u.op = .decode) :
    u.stepsLeft = u.decodeStepsLeft := by
  simp [State.stepsLeft, busy, op]

theorem State.stepsLeft_of_size {u : State} (op : u.op = .minlen ∨ u.op = .maxlen) :
    u.stepsLeft = 0 := by
  obtain op | op := op <;> simp [State.stepsLeft, op]

theorem State.stepsLeft_le_encode {u : State} (op : u.op = .encode) :
    u.stepsLeft ≤ u.encodeStepsLeft := by
  cases busy : u.busy
  · rw [State.stepsLeft_of_notBusy busy]; exact Nat.zero_le _
  · exact (State.stepsLeft_of_encode busy op).le

theorem State.stepsLeft_le_decode {u : State} (op : u.op = .decode) :
    u.stepsLeft ≤ u.decodeStepsLeft := by
  cases busy : u.busy
  · rw [State.stepsLeft_of_notBusy busy]; exact Nat.zero_le _
  · exact (State.stepsLeft_of_decode busy op).le

/-! ## One step -/

/-- The step has a next state, nearer to the end of the run. -/
def State.Progresses (u : State) : Prop := ∃ t, step u = .next t ∧ t.stepsLeft < u.stepsLeft

section
variable {u t : State} (steps : step u = .next t)
include steps

theorem State.Progresses.of_encode (busy : u.busy = true) (op : u.op = .encode)
    (op' : t.op = .encode) (nearer : t.encodeStepsLeft < u.encodeStepsLeft) : u.Progresses :=
  ⟨t, steps, Nat.lt_of_le_of_lt (State.stepsLeft_le_encode op')
    (State.stepsLeft_of_encode busy op ▸ nearer)⟩

theorem State.Progresses.of_decode (busy : u.busy = true) (op : u.op = .decode)
    (op' : t.op = .decode) (nearer : t.decodeStepsLeft < u.decodeStepsLeft) : u.Progresses :=
  ⟨t, steps, Nat.lt_of_le_of_lt (State.stepsLeft_le_decode op')
    (State.stepsLeft_of_decode busy op ▸ nearer)⟩

/-- The last step of a run. -/
theorem State.Progresses.of_end (left : 0 < u.stepsLeft) (ended : t.busy = false) : u.Progresses :=
  ⟨t, steps, State.stepsLeft_of_notBusy ended ▸ left⟩

end

/-- A cursor short of the end of the text is at a unit of IN. -/
theorem State.exists_unit {u : State} (hi : u.ipos.toNat ≤ u.tlen.toNat)
    (hin : u.tlen.toNat ≤ u.inMem.size) (unfinished : u.ipos ≠ u.tlen) :
    u.ipos.toNat < u.tlen.toNat ∧ ∃ c, u.inMem.read u.ipos.toNat = some c := by
  have more := Nat.lt_of_le_of_ne hi fun same => unfinished (BitVec.eq_of_toNat_eq same)
  exact ⟨more, _, Memory.read_eq_some.mpr ⟨Nat.lt_of_lt_of_le more hin, rfl⟩⟩

theorem State.Inv.encode_progresses {u : State} (inv : u.Inv) (op : u.op = .encode)
    (busy : u.busy = true) (inputs : u.inputs = []) : u.Progresses := by
  have ⟨⟨_, wf, _⟩, _⟩ := inv
  obtain ⟨hi, hin, hout, fits⟩ := inv.encRun op busy
  obtain ⟨-, few, ready, -⟩ := State.encFits_iff.mp fits
  have room := fits.opos_lt_cap hi
  have inside := Nat.lt_of_lt_of_le room hout
  have below := fits.opos_lt_minEncodedLength hi
  have pos := succ_toNat room
  obtain ⟨byte, flush, term, emit, -⟩ := stepDispatch u inputs
  obtain mode | mode := State.ctl_of_busy busy
  · obtain ⟨-, most⟩ := few mode
    by_cases last : u.ipos = u.tlen
    · by_cases empty : u.nbits = 0
      · obtain ⟨m, runs, -⟩ := encTermEffect u ⟨op, mode⟩ last empty inside wf
        refine .of_end ((term op mode last empty).trans runs) ?_ rfl
        rw [State.stepsLeft_of_encode busy op]
        exact Nat.lt_of_lt_of_le (Nat.sub_pos_of_lt below) (Nat.le_add_left _ _)
      · have left : 0 < u.nbits.toNat := Nat.pos_of_ne_zero (empty ∘ nbits_eq_zero.mpr)
        obtain ⟨m, c, v, t, runs, rfl, -⟩ :=
          encFlushEffect u ⟨op, mode⟩ last left (by omega) inside wf
        refine .of_encode ((flush op mode last empty).trans runs) busy op op ?_
        simp only [State.encodeStepsLeft, pos]
        omega
    · obtain ⟨more, c, unit⟩ := State.exists_unit hi hin last
      obtain ⟨a, n, p, runs, -, -, cursor, -⟩ := encByteEffect u c ⟨op, mode⟩ more (by omega) unit
      refine .of_encode ((byte op mode more).trans runs) busy op op ?_
      simp only [State.encodeStepsLeft, cursor]
      omega
  · obtain ⟨-, whole, -⟩ := ready mode
    obtain ⟨m, c, v, a, n, st, runs, -⟩ := encEmitEffect u ⟨op, mode, whole⟩ inside wf
    refine .of_encode ((emit op mode).trans runs) busy op op ?_
    simp only [State.encodeStepsLeft, pos]
    omega

/-- In the decode pass each class of unit is taken in, or ends the run. -/
theorem State.Inv.decode_unit_progresses {u : State} {c : Byte} (inv : u.Inv)
    (unit : u.atUnit c) (inputs : u.inputs = []) : u.Progresses := by
  have row := step_of_atUnit inputs unit
  obtain ⟨⟨op, mode⟩, more, unit⟩ := unit
  have busy := State.busy_of_accumulating mode
  obtain ⟨w, rfl⟩ | ⟨v, rfl⟩ | invalid := unit_cases c
  · rw [decodeUnit_code] at row
    obtain ⟨p, cursor, runs⟩ := decWsEffect u w ⟨op, mode⟩ more unit
    refine .of_decode (row.trans runs) busy op op ?_
    simp only [State.decodeStepsLeft, cursor]
    omega
  · rw [decodeUnit_charOf] at row
    obtain ⟨-, -, -, fits⟩ := inv.decRun op busy
    obtain ⟨-, few, -⟩ := State.decFits_iff.mp fits
    obtain ⟨-, most⟩ := few mode
    obtain ⟨a, n, p, st, runs, -, -, cursor, -⟩ :=
      decSymEffect u _ v ⟨op, mode⟩ more unit (valueOf_charOf v) (by omega)
    refine .of_decode (row.trans runs) busy op op ?_
    simp only [State.decodeStepsLeft, cursor]
    omega
  · rw [decodeUnit_of_isInvalidUnit invalid] at row
    obtain ⟨p, -, runs⟩ := decInvEffect u c ⟨op, mode⟩ more unit (r105Invalid_iff.mpr invalid)
    exact .of_end (row.trans runs) (State.stepsLeft_of_decode busy op ▸ Nat.succ_pos _) rfl

theorem State.Inv.decode_progresses {u : State} (inv : u.Inv) (op : u.op = .decode)
    (busy : u.busy = true) (inputs : u.inputs = []) : u.Progresses := by
  have ⟨⟨_, wf, _⟩, _⟩ := inv
  obtain ⟨hi, hin, hout, fits⟩ := inv.decRun op busy
  obtain ⟨-, -, -, -, -, finish, emit⟩ := stepDispatch u inputs
  obtain mode | mode := State.ctl_of_busy busy
  · by_cases last : u.ipos = u.tlen
    · exact .of_end ((finish op mode last).trans (decEndEffect u ⟨op, mode⟩ last))
        (State.stepsLeft_of_decode busy op ▸ Nat.succ_pos _) rfl
    · obtain ⟨more, c, unit⟩ := State.exists_unit hi hin last
      exact inv.decode_unit_progresses ⟨⟨op, mode⟩, more, unit⟩ inputs
  · obtain ⟨-, -, ready, -⟩ := State.decFits_iff.mp fits
    obtain ⟨-, whole, -⟩ := ready mode
    have room := fits.opos_lt_cap hi whole
    have below := fits.opos_lt_maxDecodedLength hi whole
    obtain ⟨m, b, a, n, runs, -⟩ :=
      decEmitEffect u ⟨op, mode, whole⟩ (Nat.lt_of_lt_of_le room hout) wf
    refine .of_decode ((emit op mode).trans runs) busy op op ?_
    simp only [State.decodeStepsLeft, succ_toNat room]
    omega

theorem State.Inv.progresses {u : State} (inv : u.Inv) (busy : u.busy = true)
    (inputs : u.inputs = []) : u.Progresses := by
  have ⟨_, _, _, run⟩ := inv
  obtain ⟨-, -, -, ⟨op, -⟩ | ⟨op, -⟩⟩ := run busy
  · exact inv.encode_progresses op busy inputs
  · exact inv.decode_progresses op busy inputs

/-- Settles O54: a busy state of the invariant is in a run of ENCODE or of DECODE, whose micro-step has
the unit it reads and the room it writes. -/
theorem busyEngineProgresses : Obligations.BusyEngineProgresses := by
  intro s inv busy inputs
  obtain ⟨t, steps, -⟩ := inv.progresses busy inputs
  exact ⟨t, steps⟩

/-! ## The whole run -/

theorem State.ended_of_notBusy {s : State} (notBusy : s.busy = false) (notIdle : s.ctl ≠ .idle) :
    s.ctl = .done ∨ s.ctl = .failed := by
  cases mode : s.ctl with
  | idle => exact absurd mode notIdle
  | done => exact .inl rfl
  | failed => exact .inr rfl
  | accumulating | emitting => simp [State.busy, mode, CtlState.busy] at notBusy

/-- Without a reset no step enters Idle (44_control.md R198). -/
theorem step_ctl_ne_idle {s t : State} (h : step s = .next t) (notIdle : s.ctl ≠ .idle)
    (noReset : ∀ rest, s.inputs ≠ .reset :: rest) : t.ctl ≠ .idle := by
  intro idle
  obtain stays | row | ⟨-, rest, action⟩ := stateTableIsComplete s t h
  · exact notIdle (stays.symm.trans idle)
  · rw [idle, mayBecome_idle] at row
    cases row
  · exact noReset rest action

/-- With the host silent, a block that meets the invariant and is not Idle gets to Done or Failed
within the steps left. -/
theorem State.Inv.run_ends (n : Nat) {u : State} (inv : u.Inv) (inputs : u.inputs = [])
    (notIdle : u.ctl ≠ .idle) (bound : u.stepsLeft ≤ n) :
    ∃ k ≤ n, ∃ t, core.run k u = .next t ∧ (t.ctl = .done ∨ t.ctl = .failed) := by
  induction n generalizing u with
  | zero =>
    cases busy : u.busy with
    | false => exact ⟨0, Nat.le_refl 0, u, rfl, State.ended_of_notBusy busy notIdle⟩
    | true =>
      obtain ⟨t, -, nearer⟩ := inv.progresses busy inputs
      omega
  | succ n ih =>
    cases busy : u.busy with
    | false => exact ⟨0, Nat.zero_le _, u, rfl, State.ended_of_notBusy busy notIdle⟩
    | true =>
      obtain ⟨v, first, nearer⟩ := inv.progresses busy inputs
      have silent := step_keeps_inputs_of_engineTurn (State.turn_of_no_inputs inputs) first
      obtain ⟨k, few, t, ends, ended⟩ := ih (stepKeepsInvariant _ _ inv first)
        (silent.trans inputs) (step_ctl_ne_idle first notIdle (by simp [inputs])) (by omega)
      exact ⟨k + 1, Nat.succ_le_succ few, t, (core_run_succ first).trans ends, ended⟩

theorem decodeCmd_ne_encSym (op : BitVec 2) (v : Sym) : decodeCmd op ≠ .encSym v := by
  unfold decodeCmd
  split <;> nofun

/-- A command that is accepted leaves Idle. -/
theorem exec_decodeCmd_ctl_ne_idle {s t : State} {op : BitVec 2}
    (h : exec (decodeCmd op) s = .next t) : t.ctl ≠ .idle := by
  intro idle
  obtain ⟨⟨v, lookup⟩, -⟩ | row := (execNext_of_exec h).ctl_cases
  · exact decodeCmd_ne_encSym op v lookup
  · rw [idle, mayBecome_idle] at row
    cases row

theorem State.encodeStepsLeft_le (u : State) :
    u.encodeStepsLeft ≤ u.tlen.toNat + 8 * u.tlen.toNat / 6 + 2 := by
  simp only [State.encodeStepsLeft, minEncodedLength]
  omega

theorem State.decodeStepsLeft_le (u : State) :
    u.decodeStepsLeft ≤ u.tlen.toNat + 6 * u.tlen.toNat / 8 + 1 := by
  simp only [State.decodeStepsLeft, maxDecodedLength]
  omega

/-- Settles O55: acceptance leaves a state of the invariant that is not Idle, and the steps left there
are within the bounds of 44_control.md R199. -/
theorem commandsEnd : Obligations.CommandsEnd := by
  intro s t0 data inv _ inputs first
  have command := (step_of_turn_eq_run (State.turn_of_cmd inputs)).symm.trans first
  obtain ⟨k, few, t, ends, ended⟩ := (stepKeepsInvariant _ _ inv first).run_ends _
    (execNext_of_exec command).keeps_inputs (exec_decodeCmd_ctl_ne_idle command) (Nat.le_refl _)
  refine ⟨k + 1, t, Nat.le_add_left 1 k, (core_run_succ first).trans ends, ended, fun op => ?_,
    fun op => ?_, fun op => ?_⟩
  · have bound := (State.stepsLeft_le_encode op).trans t0.encodeStepsLeft_le
    omega
  · have bound := (State.stepsLeft_le_decode op).trans t0.decodeStepsLeft_le
    omega
  · have none_left := State.stepsLeft_of_size op
    omega

end Sys2Proof.Machine
end

section
/-! # The errors: what raises them, and what a failed step writes -/

namespace Sys2Proof.Machine

/-- Settles O38: the two acceptances that fall short of capacity and DEC.INV are the ways that write an
error; every other way clears ERR or leaves it. -/
theorem errorCauses : Obligations.ErrorCauses := by
  intro i s t h changed
  cases execNext_of_exec h with
  | encodeFails form _ _ short => exact ⟨fun _ => .inl ⟨form, short⟩, nofun⟩
  | decodeFails form _ _ _ short => exact ⟨fun _ => .inr ⟨form, short⟩, nofun⟩
  | decInv unit invalid =>
    obtain ⟨-, -, read⟩ := unit
    exact ⟨nofun, fun _ => ⟨_, rfl, r105Invalid_iff.mpr invalid, read⟩⟩
  | minlen | maxlen | encodeStarts | decodeStarts => exact ⟨nofun, nofun⟩
  | _ => exact absurd rfl changed

theorem State.ctl_ne_failed_of_busy {s : State} (busy : s.busy = true) : s.ctl ≠ .failed := by
  obtain mode | mode := State.ctl_of_busy busy <;> simp [mode]

/-- The ways that answer a state in Failed: an acceptance that falls short of capacity, DEC.INV, and
the lookup, which leaves a state that had failed before (60_exceptions.md R215). -/
theorem ExecNext.failed_cases {i : Instr} {s t : State} (h : ExecNext i s t)
    (failed : t.ctl = .failed) :
    (s.busy = false ∧ ∃ (op : Op) (l : LenWord),
      t = ({ s.accept op with tlen := l } : State).raise .insufficientSpace) ∨
    (∃ c, i = .decInv c ∧ t = ({ s with ipos := s.ipos + 1 } : State).raise .invalidInput) ∨
    ∃ v, i = .encSym v ∧ t = s.lookupChar v := by
  cases h with
  | encodeFails _ notBusy | decodeFails _ notBusy => exact .inl ⟨notBusy, _, _, rfl⟩
  | decInv => exact .inr (.inl ⟨_, rfl, rfl⟩)
  | encSym => exact .inr (.inr ⟨_, rfl, rfl⟩)
  | ignored _ busy => exact absurd failed (State.ctl_ne_failed_of_busy busy)
  | decWs unit =>
    obtain ⟨⟨-, mode⟩, -⟩ := unit
    exact absurd failed (State.ctl_ne_failed_of_busy (State.busy_of_accumulating mode))
  | decSym | encEmit | decEmit => exact absurd failed (ctlByCount_ne_failed _ _)
  | minlen | maxlen | encodeStarts | decodeStarts | encByte | encFlush | encTerm | decEnd =>
    cases failed

/-- Settles O39: each way into Failed writes few fields, and none clears ERR there, by the part of the
invariant that relates ERR to STATE. -/
theorem failureIsPrecise : Obligations.FailureIsPrecise := by
  intro i s t h failed
  have way := execNext_of_exec h
  have raised : s.errFits → t.err ≠ .ok := fun fits ok =>
    (way.keeps_errFits fits).mp ok failed
  obtain ⟨notBusy, op, l, rfl⟩ | ⟨c, rfl, rfl⟩ | ⟨v, rfl, rfl⟩ := way.failed_cases failed
  · exact ⟨rfl, rfl, rfl, rfl, rfl, rfl, rfl, rfl, rfl, raised, fun moved => absurd rfl moved,
      fun busy => absurd busy (Bool.eq_false_iff.mp notBusy)⟩
  · exact ⟨rfl, rfl, rfl, rfl, rfl, rfl, rfl, rfl, rfl, raised, fun _ => ⟨c, rfl⟩,
      fun _ => ⟨rfl, rfl⟩⟩
  · exact ⟨rfl, rfl, rfl, rfl, rfl, rfl, rfl, rfl, rfl, raised, fun moved => absurd rfl moved,
      fun _ => ⟨rfl, rfl⟩⟩

end Sys2Proof.Machine
end

section
/-! # Reset -/

namespace Sys2Proof.Machine

/-- The reset input is a whole event, busy or not (70_reset_and_hazards.md R231, R232). -/
theorem State.turn_of_reset {s : State} {rest : List HostAction} (h : s.inputs = .reset :: rest) :
    s.turn = .done { s with inputs := rest }.rst := by
  simp [State.turn, h]

/-- Settles O49: the turn is the reset, which keeps the spaces and what is the host's, and writes 0 to
charOut too. -/
theorem resetEffect : Obligations.ResetEffect := by
  intro s rest inputs
  exact ⟨0, step_eq_next.mpr (.inl (State.turn_of_reset inputs))⟩

end Sys2Proof.Machine
end

section
/-! # The register port, micro-steps while not busy, and the invariant at reset -/

namespace Sys2Proof.Machine

/-! ## The register port -/

/-- A write to CMD runs the operation whose code the two low bits are (10_state.md R21). -/
theorem step_of_cmd {s : State} {data : LenWord} {rest : List HostAction}
    (action : s.inputs = .write 0 data :: rest) (op : Op)
    (low : data.toNat % 4 = op.code.toNat) :
    step s = exec (decodeCmd op.code) { s with inputs := rest } := by
  have bits : data.setWidth 2 = op.code :=
    BitVec.eq_of_toNat_eq ((BitVec.toNat_setWidth 2 data).trans low)
  rw [step_of_turn_eq_run (State.turn_of_cmd action), bits]

/-- Settles O32: the two low bits are the code of the operation, and no code is reserved. -/
theorem commandWrite : Obligations.CommandWrite := fun _ _ _ action =>
  ⟨step_of_cmd action .minlen, step_of_cmd action .maxlen, step_of_cmd action .encode,
    step_of_cmd action .decode⟩

theorem step_of_portWrite_eq_done {s t : State} {n : Nat} {data : LenWord} {rest : List HostAction}
    (action : s.inputs = .write n data :: rest)
    (write : ({ s with inputs := rest } : State).portWrite n data = .done t) : step s = .next t :=
  step_eq_next.mpr (.inl (by rw [State.turn, action]; exact write))

theorem State.portWrite_len {s : State} (data : LenWord) (notBusy : s.busy = false) :
    s.portWrite 1 data = .done { s with len := data } := by
  simp [State.portWrite, notBusy]

theorem State.portWrite_cap {s : State} (data : LenWord) (notBusy : s.busy = false) :
    s.portWrite 2 data = .done { s with cap := data } := by
  simp [State.portWrite, notBusy]

/-- STATUS, COUNT and RESULT are read-only, and a number above 5 is no register. -/
theorem State.portWrite_of_readOnly (s : State) {n : Nat} (data : LenWord) (readOnly : 3 ≤ n) :
    s.portWrite n data = .done s := by
  obtain ⟨k, rfl⟩ := Nat.exists_eq_add_of_le' readOnly
  rfl

theorem State.portRead_of_above (s : State) {n : Nat} (above : 6 ≤ n) : s.portRead n = 0 := by
  obtain ⟨k, rfl⟩ := Nat.exists_eq_add_of_le' above
  rfl

/-- Settles O34: a write is over with its turn, and a read changes the data read only; the port is wide
enough for every register. -/
theorem registerPort : Obligations.RegisterPort := by
  intro s rest data notBusy
  have after : ({ s with inputs := rest } : State).busy = false := notBusy
  refine ⟨fun action => step_of_portWrite_eq_done action (State.portWrite_len data after),
    fun action => step_of_portWrite_eq_done action (State.portWrite_cap data after),
    fun n readOnly action =>
      step_of_portWrite_eq_done action (State.portWrite_of_readOnly _ data readOnly),
    fun n action => ⟨s.portRead n, step_of_read action, ?_, ?_, ?_, ?_, ?_, ?_,
      s.portRead_of_above⟩⟩
  · rintro rfl; exact BitVec.toNat_setWidth_of_le (by decide)
  · rintro rfl; exact BitVec.toNat_setWidth_of_le (by decide)
  · rintro rfl; exact BitVec.toNat_setWidth_of_le (by decide)
  · rintro rfl; exact s.portRead_status_toNat
  · rintro rfl; exact BitVec.toNat_setWidth_of_le (by decide)
  · rintro rfl; rfl

/-! ## Micro-steps while not busy -/

theorem State.ctl_ne_of_notBusy {s : State} (notBusy : s.busy = false) :
    s.ctl ≠ .accumulating ∧ s.ctl ≠ .emitting := by
  have no : s.busy ≠ true := Bool.eq_false_iff.mp notBusy
  exact ⟨fun mode => no (State.busy_of_accumulating mode),
    fun mode => no (State.busy_of_emitting mode)⟩

/-- Settles O43: the condition of each micro-step names Accumulating or Emitting, and both are busy. -/
theorem microStepNeedsBusy : Obligations.MicroStepNeedsBusy := by
  intro s w c v notBusy
  obtain ⟨notAccumulating, notEmitting⟩ := State.ctl_ne_of_notBusy notBusy
  have notAtUnit : ∀ u, ¬ s.atUnit u := fun _ ⟨⟨_, mode⟩, _⟩ => notAccumulating mode
  refine ⟨if_neg ?encByte, if_neg ?encEmit, if_neg ?encFlush, if_neg ?encTerm, if_neg ?decWs,
    if_neg ?decInv, if_neg ?decSym, if_neg ?decEmit, if_neg ?decEnd⟩
  case encByte | encFlush | encTerm | decEnd => exact fun ⟨⟨_, mode⟩, _⟩ => notAccumulating mode
  case encEmit | decEmit => exact fun ⟨_, mode, _⟩ => notEmitting mode
  case decWs => exact notAtUnit w.code
  case decInv | decSym => exact fun ⟨unit, _⟩ => notAtUnit _ unit

/-! ## The invariant at reset -/

/-- Settles O53: the reset state is what resetting leaves of itself, and its spaces are empty. -/
theorem invariantAtReset : Obligations.InvariantAtReset :=
  State.rst_inv (s := .reset) State.reset_spaces_wf

end Sys2Proof.Machine
end
